-- ==== Sys2Proof/Word.lean ====
section
/-! DEFINITION. The widths of the machine: XLEN is 32 (R2), memory is byte-addressed (R23), a register field has 5 bits
(R52). Only the types stand here; every helper over them stands in a file a repair may mend. -/

namespace Sys2Proof

/-- A register, the pc or an address: XLEN = 32 bits (R2). -/
abbrev Word := BitVec 32

/-- One byte of memory (R23, R31). -/
abbrev Byte := BitVec 8

/-- A register number: the 5-bit fields `rd`, `rs1`, `rs2` (R10, R52). -/
abbrev RegIdx := BitVec 5

/-- A CSR address: the 12-bit field `csr` (R17, R53). -/
abbrev CsrAddr := BitVec 12

end Sys2Proof
end

