-- ==== Sys2Proof/Syntax.lean ====
section
/-! DEFINITION. The 47 instructions (R1), one constructor per row of spec/opcode_table.json, in the table's order. The
operands are the fields of R52 to R59, in the order of the assembler syntax (R74). -/

namespace Sys2Proof

/-- An instruction with its decoded fields. A branch or JAL offset is the whole byte offset, bit 0 included (R56, R58);
every other immediate is the field as the word holds it. FENCE and FENCE.I keep their reserved fields (R69), so that no
bit of a word is lost. -/
inductive Instr where
  | lui (rd : RegIdx) (imm : BitVec 20)
  | auipc (rd : RegIdx) (imm : BitVec 20)
  | jal (rd : RegIdx) (offset : BitVec 21)
  | jalr (rd rs1 : RegIdx) (imm : BitVec 12)
  | beq (rs1 rs2 : RegIdx) (offset : BitVec 13)
  | bne (rs1 rs2 : RegIdx) (offset : BitVec 13)
  | blt (rs1 rs2 : RegIdx) (offset : BitVec 13)
  | bge (rs1 rs2 : RegIdx) (offset : BitVec 13)
  | bltu (rs1 rs2 : RegIdx) (offset : BitVec 13)
  | bgeu (rs1 rs2 : RegIdx) (offset : BitVec 13)
  | lb (rd rs1 : RegIdx) (imm : BitVec 12)
  | lh (rd rs1 : RegIdx) (imm : BitVec 12)
  | lw (rd rs1 : RegIdx) (imm : BitVec 12)
  | lbu (rd rs1 : RegIdx) (imm : BitVec 12)
  | lhu (rd rs1 : RegIdx) (imm : BitVec 12)
  | sb (rs2 rs1 : RegIdx) (imm : BitVec 12)
  | sh (rs2 rs1 : RegIdx) (imm : BitVec 12)
  | sw (rs2 rs1 : RegIdx) (imm : BitVec 12)
  | addi (rd rs1 : RegIdx) (imm : BitVec 12)
  | slti (rd rs1 : RegIdx) (imm : BitVec 12)
  | sltiu (rd rs1 : RegIdx) (imm : BitVec 12)
  | xori (rd rs1 : RegIdx) (imm : BitVec 12)
  | ori (rd rs1 : RegIdx) (imm : BitVec 12)
  | andi (rd rs1 : RegIdx) (imm : BitVec 12)
  | slli (rd rs1 : RegIdx) (shamt : BitVec 5)
  | srli (rd rs1 : RegIdx) (shamt : BitVec 5)
  | srai (rd rs1 : RegIdx) (shamt : BitVec 5)
  | add (rd rs1 rs2 : RegIdx)
  | sub (rd rs1 rs2 : RegIdx)
  | sll (rd rs1 rs2 : RegIdx)
  | slt (rd rs1 rs2 : RegIdx)
  | sltu (rd rs1 rs2 : RegIdx)
  | xor (rd rs1 rs2 : RegIdx)
  | srl (rd rs1 rs2 : RegIdx)
  | sra (rd rs1 rs2 : RegIdx)
  | or (rd rs1 rs2 : RegIdx)
  | and (rd rs1 rs2 : RegIdx)
  | fence (fm pred succ : BitVec 4) (rs1 rd : RegIdx)
  | fenceI (imm : BitVec 12) (rs1 rd : RegIdx)
  | ecall
  | ebreak
  | csrrw (rd : RegIdx) (csr : CsrAddr) (rs1 : RegIdx)
  | csrrs (rd : RegIdx) (csr : CsrAddr) (rs1 : RegIdx)
  | csrrc (rd : RegIdx) (csr : CsrAddr) (rs1 : RegIdx)
  | csrrwi (rd : RegIdx) (csr : CsrAddr) (uimm : BitVec 5)
  | csrrsi (rd : RegIdx) (csr : CsrAddr) (uimm : BitVec 5)
  | csrrci (rd : RegIdx) (csr : CsrAddr) (uimm : BitVec 5)
deriving DecidableEq, Repr

end Sys2Proof
end

