-- ==== Sys2Proof/WellFormed.lean ====
section
/-! DEFINITION. Which instructions have an encoding. Every field has the width of R51 to R59, so one check is left: a
branch offset (R56) and a JAL offset (R58) are even, because their bit 0 is not encoded. -/

namespace Sys2Proof

/-- The instruction can be encoded: a branch's or JAL's byte offset is even (R56, R58). -/
def Instr.wellFormed : Instr → Bool
  | .jal _ offset => !offset.getLsbD 0
  | .beq _ _ offset => !offset.getLsbD 0
  | .bne _ _ offset => !offset.getLsbD 0
  | .blt _ _ offset => !offset.getLsbD 0
  | .bge _ _ offset => !offset.getLsbD 0
  | .bltu _ _ offset => !offset.getLsbD 0
  | .bgeu _ _ offset => !offset.getLsbD 0
  | .lui _ _ | .auipc _ _ | .jalr _ _ _ => true
  | .lb _ _ _ | .lh _ _ _ | .lw _ _ _ | .lbu _ _ _ | .lhu _ _ _ => true
  | .sb _ _ _ | .sh _ _ _ | .sw _ _ _ => true
  | .addi _ _ _ | .slti _ _ _ | .sltiu _ _ _ | .xori _ _ _ | .ori _ _ _ | .andi _ _ _ => true
  | .slli _ _ _ | .srli _ _ _ | .srai _ _ _ => true
  | .add _ _ _ | .sub _ _ _ | .sll _ _ _ | .slt _ _ _ | .sltu _ _ _ => true
  | .xor _ _ _ | .srl _ _ _ | .sra _ _ _ | .or _ _ _ | .and _ _ _ => true
  | .fence _ _ _ _ _ | .fenceI _ _ _ | .ecall | .ebreak => true
  | .csrrw _ _ _ | .csrrs _ _ _ | .csrrc _ _ _ | .csrrwi _ _ _ | .csrrsi _ _ _ | .csrrci _ _ _ => true

end Sys2Proof
end

