-- ==== Sys2Proof/Decode.lean ====
section
/-! DEFINITION. From bits to instructions and back: the fields (R52, R53), the immediates' scattered bits (R55 to R58),
the decoder (R60 to R66), total on every word and every byte list, then the encoder, and the table of R61. -/

namespace Sys2Proof

/-! ### Byte order (R30) -/

/-- A word's four bytes in memory order: `v[7:0]` first, at the lowest address (R30). -/
def leWord (b0 b1 b2 b3 : Byte) : Word := b3 ++ b2 ++ b1 ++ b0

/-- Byte `i` of a word in memory order, `v[8i+7 : 8i]` (R34). -/
def wordByte (v : Word) (i : Nat) : Byte := v.extractLsb' (8 * i) 8

/-! ### Fields (R52, R53) -/

/-- `inst[6:0]` (R52). -/
def opcodeField (w : Word) : BitVec 7 := w.extractLsb' 0 7
/-- `inst[11:7]` (R52). -/
def rdField (w : Word) : RegIdx := w.extractLsb' 7 5
/-- `inst[14:12]` (R52). -/
def funct3Field (w : Word) : BitVec 3 := w.extractLsb' 12 3
/-- `inst[19:15]` (R52); the immediate CSR forms read it as `uimm` (R53). -/
def rs1Field (w : Word) : RegIdx := w.extractLsb' 15 5
/-- `inst[24:20]` (R52); the shift immediates read it as `shamt` (R53). -/
def rs2Field (w : Word) : RegIdx := w.extractLsb' 20 5
/-- `inst[31:25]` (R52). -/
def funct7Field (w : Word) : BitVec 7 := w.extractLsb' 25 7
/-- `inst[31:20]`: the I-immediate (R54) or the CSR address (R53). -/
def immIField (w : Word) : BitVec 12 := w.extractLsb' 20 12
/-- `(inst[31:25], inst[11:7])`: the S-immediate (R55). -/
def immSField (w : Word) : BitVec 12 := funct7Field w ++ rdField w
/-- `(inst[31], inst[7], inst[30:25], inst[11:8], 0)`: the B-immediate (R56). -/
def immBField (w : Word) : BitVec 13 :=
  w.extractLsb' 31 1 ++ w.extractLsb' 7 1 ++ w.extractLsb' 25 6 ++ w.extractLsb' 8 4 ++ 0#1
/-- `inst[31:12]`: the U-immediate's field (R57). -/
def immUField (w : Word) : BitVec 20 := w.extractLsb' 12 20
/-- `(inst[31], inst[19:12], inst[20], inst[30:21], 0)`: the J-immediate (R58). -/
def immJField (w : Word) : BitVec 21 :=
  w.extractLsb' 31 1 ++ w.extractLsb' 12 8 ++ w.extractLsb' 20 1 ++ w.extractLsb' 21 10 ++ 0#1
/-- `fm = inst[31:28]` of FENCE (R53). -/
def fmField (w : Word) : BitVec 4 := w.extractLsb' 28 4
/-- `pred = inst[27:24]` of FENCE (R53). -/
def predField (w : Word) : BitVec 4 := w.extractLsb' 24 4
/-- `succ = inst[23:20]` of FENCE (R53). -/
def succField (w : Word) : BitVec 4 := w.extractLsb' 20 4

/-! ### Decoder (R65), by opcode (R60) and function fields (R62 to R64) -/

/-- Why a word is no instruction: the ten classes of R67, in its order. Each raises IllegalInstruction (R66). -/
inductive IllegalClass where
  /-- (a) `inst[1:0]` is not `11`. -/
  | lowBits
  /-- (b) an opcode that is none of the eleven of R60. -/
  | opcode
  /-- (c) a register-register word with another `funct7`. -/
  | regFunct7
  /-- (d) a shift immediate with a bad `inst[31:25]` (R62). -/
  | shiftImm
  /-- (e) `funct3` of JALR is not 000 (R127). -/
  | jalrFunct3
  /-- (f) a branch with `funct3` 010 or 011 (R168). -/
  | branchFunct3
  /-- (g) a load with `funct3` 011, 110 or 111 (R106). -/
  | loadFunct3
  /-- (h) a store with `funct3` 011 to 111 (R159). -/
  | storeFunct3
  /-- (i) a FENCE opcode with `funct3` 010 to 111 (R150). -/
  | fenceFunct3
  /-- (j) a SYSTEM word with `funct3` 100, or 000 and neither ECALL nor EBREAK (R63, R68, R139). -/
  | system
deriving DecidableEq, Repr

/-- `opcode = 1100011` (R160, R168). -/
def decodeBranch (w : Word) : Except IllegalClass Instr :=
  match funct3Field w with
  | 0b000#3 => .ok (.beq (rs1Field w) (rs2Field w) (immBField w))
  | 0b001#3 => .ok (.bne (rs1Field w) (rs2Field w) (immBField w))
  | 0b100#3 => .ok (.blt (rs1Field w) (rs2Field w) (immBField w))
  | 0b101#3 => .ok (.bge (rs1Field w) (rs2Field w) (immBField w))
  | 0b110#3 => .ok (.bltu (rs1Field w) (rs2Field w) (immBField w))
  | 0b111#3 => .ok (.bgeu (rs1Field w) (rs2Field w) (immBField w))
  | _ => .error .branchFunct3

/-- `opcode = 0000011` (R100, R106). -/
def decodeLoad (w : Word) : Except IllegalClass Instr :=
  match funct3Field w with
  | 0b000#3 => .ok (.lb (rdField w) (rs1Field w) (immIField w))
  | 0b001#3 => .ok (.lh (rdField w) (rs1Field w) (immIField w))
  | 0b010#3 => .ok (.lw (rdField w) (rs1Field w) (immIField w))
  | 0b100#3 => .ok (.lbu (rdField w) (rs1Field w) (immIField w))
  | 0b101#3 => .ok (.lhu (rdField w) (rs1Field w) (immIField w))
  | _ => .error .loadFunct3

/-- `opcode = 0100011` (R155, R159). -/
def decodeStore (w : Word) : Except IllegalClass Instr :=
  match funct3Field w with
  | 0b000#3 => .ok (.sb (rs2Field w) (rs1Field w) (immSField w))
  | 0b001#3 => .ok (.sh (rs2Field w) (rs1Field w) (immSField w))
  | 0b010#3 => .ok (.sw (rs2Field w) (rs1Field w) (immSField w))
  | _ => .error .storeFunct3

/-- `opcode = 0010011` (R110, R62, R120). -/
def decodeOpImm (w : Word) : Except IllegalClass Instr :=
  match funct3Field w with
  | 0b000#3 => .ok (.addi (rdField w) (rs1Field w) (immIField w))
  | 0b010#3 => .ok (.slti (rdField w) (rs1Field w) (immIField w))
  | 0b011#3 => .ok (.sltiu (rdField w) (rs1Field w) (immIField w))
  | 0b100#3 => .ok (.xori (rdField w) (rs1Field w) (immIField w))
  | 0b110#3 => .ok (.ori (rdField w) (rs1Field w) (immIField w))
  | 0b111#3 => .ok (.andi (rdField w) (rs1Field w) (immIField w))
  | 0b001#3 =>
    match funct7Field w with
    | 0b0000000#7 => .ok (.slli (rdField w) (rs1Field w) (rs2Field w))
    | _ => .error .shiftImm
  | _ => -- 101
    match funct7Field w with
    | 0b0000000#7 => .ok (.srli (rdField w) (rs1Field w) (rs2Field w))
    | 0b0100000#7 => .ok (.srai (rdField w) (rs1Field w) (rs2Field w))
    | _ => .error .shiftImm

/-- `opcode = 0110011` (R80). -/
def decodeOp (w : Word) : Except IllegalClass Instr :=
  match funct7Field w with
  | 0b0000000#7 =>
    match funct3Field w with
    | 0b000#3 => .ok (.add (rdField w) (rs1Field w) (rs2Field w))
    | 0b001#3 => .ok (.sll (rdField w) (rs1Field w) (rs2Field w))
    | 0b010#3 => .ok (.slt (rdField w) (rs1Field w) (rs2Field w))
    | 0b011#3 => .ok (.sltu (rdField w) (rs1Field w) (rs2Field w))
    | 0b100#3 => .ok (.xor (rdField w) (rs1Field w) (rs2Field w))
    | 0b101#3 => .ok (.srl (rdField w) (rs1Field w) (rs2Field w))
    | 0b110#3 => .ok (.or (rdField w) (rs1Field w) (rs2Field w))
    | _ => .ok (.and (rdField w) (rs1Field w) (rs2Field w)) -- 111
  | 0b0100000#7 =>
    match funct3Field w with
    | 0b000#3 => .ok (.sub (rdField w) (rs1Field w) (rs2Field w))
    | 0b101#3 => .ok (.sra (rdField w) (rs1Field w) (rs2Field w))
    | _ => .error .regFunct7
  | _ => .error .regFunct7

/-- `opcode = 0001111`: only `funct3` selects, the reserved fields are kept and ignored (R64, R69). -/
def decodeMiscMem (w : Word) : Except IllegalClass Instr :=
  match funct3Field w with
  | 0b000#3 => .ok (.fence (fmField w) (predField w) (succField w) (rs1Field w) (rdField w))
  | 0b001#3 => .ok (.fenceI (immIField w) (rs1Field w) (rdField w))
  | _ => .error .fenceFunct3

/-- `opcode = 1110011` (R63, R64). -/
def decodeSystem (w : Word) : Except IllegalClass Instr :=
  match funct3Field w with
  | 0b001#3 => .ok (.csrrw (rdField w) (immIField w) (rs1Field w))
  | 0b010#3 => .ok (.csrrs (rdField w) (immIField w) (rs1Field w))
  | 0b011#3 => .ok (.csrrc (rdField w) (immIField w) (rs1Field w))
  | 0b101#3 => .ok (.csrrwi (rdField w) (immIField w) (rs1Field w))
  | 0b110#3 => .ok (.csrrsi (rdField w) (immIField w) (rs1Field w))
  | 0b111#3 => .ok (.csrrci (rdField w) (immIField w) (rs1Field w))
  | _ =>
    if w = 0x00000073#32 then .ok .ecall
    else if w = 0x00100073#32 then .ok .ebreak
    else .error .system

/-- `opcode = 1100111` (R125, R127). -/
def decodeJalr (w : Word) : Except IllegalClass Instr :=
  match funct3Field w with
  | 0b000#3 => .ok (.jalr (rdField w) (rs1Field w) (immIField w))
  | _ => .error .jalrFunct3

/-- `Decode(w)` (R65), total on all 2^32 words; it depends on the word alone. -/
def decode (w : Word) : Except IllegalClass Instr :=
  match opcodeField w with
  | 0b0110111#7 => .ok (.lui (rdField w) (immUField w))
  | 0b0010111#7 => .ok (.auipc (rdField w) (immUField w))
  | 0b1101111#7 => .ok (.jal (rdField w) (immJField w))
  | 0b1100111#7 => decodeJalr w
  | 0b1100011#7 => decodeBranch w
  | 0b0000011#7 => decodeLoad w
  | 0b0100011#7 => decodeStore w
  | 0b0010011#7 => decodeOpImm w
  | 0b0110011#7 => decodeOp w
  | 0b0001111#7 => decodeMiscMem w
  | 0b1110011#7 => decodeSystem w
  | _ => if w.extractLsb' 0 2 = 0b11#2 then .error .opcode else .error .lowBits

/-- Why a list of bytes holds no instruction at its start. -/
inductive DecodeError where
  /-- Fewer than the four bytes every instruction has (R50). -/
  | truncated
  /-- The first four bytes are the word `w`, which matches no row of R61 (R66). -/
  | illegal (w : Word) (why : IllegalClass)
deriving DecidableEq, Repr

/-- The instruction at the start of a list of bytes, lowest address first, with the bytes after it: every instruction
is 4 bytes, little-endian (R50, R30). Total on any bytes. -/
def decodeBytes : List Byte → Except DecodeError (Instr × List Byte)
  | b0 :: b1 :: b2 :: b3 :: rest =>
    match decode (leWord b0 b1 b2 b3) with
    | .ok i => .ok (i, rest)
    | .error c => .error (.illegal (leWord b0 b1 b2 b3) c)
  | _ => .error .truncated

/-- The word the opcode table numbers by `nbits` and `w`: every bit from `nbits` up is 0. -/
def tableWord (nbits w : Nat) : Word := BitVec.ofNat 32 (w % 2 ^ nbits)

/-- A word's four bytes as memory holds them (R30). -/
def wordBytes (v : Word) : List Byte := [wordByte v 0, wordByte v 1, wordByte v 2, wordByte v 3]

/-- The instruction the decoder reads from the bits `w` of a table row of `nbits` bits, laid out as bytes in memory
order. -/
def decodeTableWord (nbits w : Nat) : Option Instr :=
  match decodeBytes (wordBytes (tableWord nbits w)) with
  | .ok (i, _) => some i
  | .error _ => none

/-! ### Encoder: the formats of R51 -/

/-- R format (R51). -/
def packR (funct7 : BitVec 7) (rs2 rs1 : RegIdx) (funct3 : BitVec 3) (rd : RegIdx) (opcode : BitVec 7) : Word :=
  funct7 ++ rs2 ++ rs1 ++ funct3 ++ rd ++ opcode

/-- I format (R51, R54). -/
def packI (imm : BitVec 12) (rs1 : RegIdx) (funct3 : BitVec 3) (rd : RegIdx) (opcode : BitVec 7) : Word :=
  imm ++ rs1 ++ funct3 ++ rd ++ opcode

/-- S format (R51, R55). -/
def packS (imm : BitVec 12) (rs2 rs1 : RegIdx) (funct3 : BitVec 3) (opcode : BitVec 7) : Word :=
  imm.extractLsb' 5 7 ++ rs2 ++ rs1 ++ funct3 ++ imm.extractLsb' 0 5 ++ opcode

/-- B format (R51, R56). -/
def packB (imm : BitVec 13) (rs2 rs1 : RegIdx) (funct3 : BitVec 3) (opcode : BitVec 7) : Word :=
  imm.extractLsb' 12 1 ++ imm.extractLsb' 5 6 ++ rs2 ++ rs1 ++ funct3 ++ imm.extractLsb' 1 4 ++
    imm.extractLsb' 11 1 ++ opcode

/-- U format (R51, R57). -/
def packU (imm : BitVec 20) (rd : RegIdx) (opcode : BitVec 7) : Word := imm ++ rd ++ opcode

/-- J format (R51, R58). -/
def packJ (imm : BitVec 21) (rd : RegIdx) (opcode : BitVec 7) : Word :=
  imm.extractLsb' 20 1 ++ imm.extractLsb' 1 10 ++ imm.extractLsb' 11 1 ++ imm.extractLsb' 12 8 ++ rd ++ opcode

/-- The word of a well-formed instruction (R61). -/
def encode : Instr → Word
  | .lui rd imm => packU imm rd 0b0110111#7
  | .auipc rd imm => packU imm rd 0b0010111#7
  | .jal rd offset => packJ offset rd 0b1101111#7
  | .jalr rd rs1 imm => packI imm rs1 0b000#3 rd 0b1100111#7
  | .beq rs1 rs2 offset => packB offset rs2 rs1 0b000#3 0b1100011#7
  | .bne rs1 rs2 offset => packB offset rs2 rs1 0b001#3 0b1100011#7
  | .blt rs1 rs2 offset => packB offset rs2 rs1 0b100#3 0b1100011#7
  | .bge rs1 rs2 offset => packB offset rs2 rs1 0b101#3 0b1100011#7
  | .bltu rs1 rs2 offset => packB offset rs2 rs1 0b110#3 0b1100011#7
  | .bgeu rs1 rs2 offset => packB offset rs2 rs1 0b111#3 0b1100011#7
  | .lb rd rs1 imm => packI imm rs1 0b000#3 rd 0b0000011#7
  | .lh rd rs1 imm => packI imm rs1 0b001#3 rd 0b0000011#7
  | .lw rd rs1 imm => packI imm rs1 0b010#3 rd 0b0000011#7
  | .lbu rd rs1 imm => packI imm rs1 0b100#3 rd 0b0000011#7
  | .lhu rd rs1 imm => packI imm rs1 0b101#3 rd 0b0000011#7
  | .sb rs2 rs1 imm => packS imm rs2 rs1 0b000#3 0b0100011#7
  | .sh rs2 rs1 imm => packS imm rs2 rs1 0b001#3 0b0100011#7
  | .sw rs2 rs1 imm => packS imm rs2 rs1 0b010#3 0b0100011#7
  | .addi rd rs1 imm => packI imm rs1 0b000#3 rd 0b0010011#7
  | .slti rd rs1 imm => packI imm rs1 0b010#3 rd 0b0010011#7
  | .sltiu rd rs1 imm => packI imm rs1 0b011#3 rd 0b0010011#7
  | .xori rd rs1 imm => packI imm rs1 0b100#3 rd 0b0010011#7
  | .ori rd rs1 imm => packI imm rs1 0b110#3 rd 0b0010011#7
  | .andi rd rs1 imm => packI imm rs1 0b111#3 rd 0b0010011#7
  | .slli rd rs1 shamt => packR 0b0000000#7 shamt rs1 0b001#3 rd 0b0010011#7
  | .srli rd rs1 shamt => packR 0b0000000#7 shamt rs1 0b101#3 rd 0b0010011#7
  | .srai rd rs1 shamt => packR 0b0100000#7 shamt rs1 0b101#3 rd 0b0010011#7
  | .add rd rs1 rs2 => packR 0b0000000#7 rs2 rs1 0b000#3 rd 0b0110011#7
  | .sub rd rs1 rs2 => packR 0b0100000#7 rs2 rs1 0b000#3 rd 0b0110011#7
  | .sll rd rs1 rs2 => packR 0b0000000#7 rs2 rs1 0b001#3 rd 0b0110011#7
  | .slt rd rs1 rs2 => packR 0b0000000#7 rs2 rs1 0b010#3 rd 0b0110011#7
  | .sltu rd rs1 rs2 => packR 0b0000000#7 rs2 rs1 0b011#3 rd 0b0110011#7
  | .xor rd rs1 rs2 => packR 0b0000000#7 rs2 rs1 0b100#3 rd 0b0110011#7
  | .srl rd rs1 rs2 => packR 0b0000000#7 rs2 rs1 0b101#3 rd 0b0110011#7
  | .sra rd rs1 rs2 => packR 0b0100000#7 rs2 rs1 0b101#3 rd 0b0110011#7
  | .or rd rs1 rs2 => packR 0b0000000#7 rs2 rs1 0b110#3 rd 0b0110011#7
  | .and rd rs1 rs2 => packR 0b0000000#7 rs2 rs1 0b111#3 rd 0b0110011#7
  | .fence fm pred succ rs1 rd => packI (fm ++ pred ++ succ) rs1 0b000#3 rd 0b0001111#7
  | .fenceI imm rs1 rd => packI imm rs1 0b001#3 rd 0b0001111#7
  | .ecall => 0x00000073#32
  | .ebreak => 0x00100073#32
  | .csrrw rd csr rs1 => packI csr rs1 0b001#3 rd 0b1110011#7
  | .csrrs rd csr rs1 => packI csr rs1 0b010#3 rd 0b1110011#7
  | .csrrc rd csr rs1 => packI csr rs1 0b011#3 rd 0b1110011#7
  | .csrrwi rd csr uimm => packI csr uimm 0b101#3 rd 0b1110011#7
  | .csrrsi rd csr uimm => packI csr uimm 0b110#3 rd 0b1110011#7
  | .csrrci rd csr uimm => packI csr uimm 0b111#3 rd 0b1110011#7

/-! ### The table of R61, written out apart from decoder and encoder -/

/-- A row of R61: a word `w` is this instruction when `w &&& mask = pattern`. -/
structure Row where
  mnemonic : String
  mask : Word
  pattern : Word
deriving DecidableEq, Repr

/-- An instruction's row of R61: mnemonic, mask, match. -/
def Instr.row : Instr → Row
  | .lui _ _ => ⟨"LUI", 0x0000007f#32, 0x00000037#32⟩
  | .auipc _ _ => ⟨"AUIPC", 0x0000007f#32, 0x00000017#32⟩
  | .jal _ _ => ⟨"JAL", 0x0000007f#32, 0x0000006f#32⟩
  | .jalr _ _ _ => ⟨"JALR", 0x0000707f#32, 0x00000067#32⟩
  | .beq _ _ _ => ⟨"BEQ", 0x0000707f#32, 0x00000063#32⟩
  | .bne _ _ _ => ⟨"BNE", 0x0000707f#32, 0x00001063#32⟩
  | .blt _ _ _ => ⟨"BLT", 0x0000707f#32, 0x00004063#32⟩
  | .bge _ _ _ => ⟨"BGE", 0x0000707f#32, 0x00005063#32⟩
  | .bltu _ _ _ => ⟨"BLTU", 0x0000707f#32, 0x00006063#32⟩
  | .bgeu _ _ _ => ⟨"BGEU", 0x0000707f#32, 0x00007063#32⟩
  | .lb _ _ _ => ⟨"LB", 0x0000707f#32, 0x00000003#32⟩
  | .lh _ _ _ => ⟨"LH", 0x0000707f#32, 0x00001003#32⟩
  | .lw _ _ _ => ⟨"LW", 0x0000707f#32, 0x00002003#32⟩
  | .lbu _ _ _ => ⟨"LBU", 0x0000707f#32, 0x00004003#32⟩
  | .lhu _ _ _ => ⟨"LHU", 0x0000707f#32, 0x00005003#32⟩
  | .sb _ _ _ => ⟨"SB", 0x0000707f#32, 0x00000023#32⟩
  | .sh _ _ _ => ⟨"SH", 0x0000707f#32, 0x00001023#32⟩
  | .sw _ _ _ => ⟨"SW", 0x0000707f#32, 0x00002023#32⟩
  | .addi _ _ _ => ⟨"ADDI", 0x0000707f#32, 0x00000013#32⟩
  | .slti _ _ _ => ⟨"SLTI", 0x0000707f#32, 0x00002013#32⟩
  | .sltiu _ _ _ => ⟨"SLTIU", 0x0000707f#32, 0x00003013#32⟩
  | .xori _ _ _ => ⟨"XORI", 0x0000707f#32, 0x00004013#32⟩
  | .ori _ _ _ => ⟨"ORI", 0x0000707f#32, 0x00006013#32⟩
  | .andi _ _ _ => ⟨"ANDI", 0x0000707f#32, 0x00007013#32⟩
  | .slli _ _ _ => ⟨"SLLI", 0xfe00707f#32, 0x00001013#32⟩
  | .srli _ _ _ => ⟨"SRLI", 0xfe00707f#32, 0x00005013#32⟩
  | .srai _ _ _ => ⟨"SRAI", 0xfe00707f#32, 0x40005013#32⟩
  | .add _ _ _ => ⟨"ADD", 0xfe00707f#32, 0x00000033#32⟩
  | .sub _ _ _ => ⟨"SUB", 0xfe00707f#32, 0x40000033#32⟩
  | .sll _ _ _ => ⟨"SLL", 0xfe00707f#32, 0x00001033#32⟩
  | .slt _ _ _ => ⟨"SLT", 0xfe00707f#32, 0x00002033#32⟩
  | .sltu _ _ _ => ⟨"SLTU", 0xfe00707f#32, 0x00003033#32⟩
  | .xor _ _ _ => ⟨"XOR", 0xfe00707f#32, 0x00004033#32⟩
  | .srl _ _ _ => ⟨"SRL", 0xfe00707f#32, 0x00005033#32⟩
  | .sra _ _ _ => ⟨"SRA", 0xfe00707f#32, 0x40005033#32⟩
  | .or _ _ _ => ⟨"OR", 0xfe00707f#32, 0x00006033#32⟩
  | .and _ _ _ => ⟨"AND", 0xfe00707f#32, 0x00007033#32⟩
  | .fence _ _ _ _ _ => ⟨"FENCE", 0x0000707f#32, 0x0000000f#32⟩
  | .fenceI _ _ _ => ⟨"FENCE.I", 0x0000707f#32, 0x0000100f#32⟩
  | .ecall => ⟨"ECALL", 0xffffffff#32, 0x00000073#32⟩
  | .ebreak => ⟨"EBREAK", 0xffffffff#32, 0x00100073#32⟩
  | .csrrw _ _ _ => ⟨"CSRRW", 0x0000707f#32, 0x00001073#32⟩
  | .csrrs _ _ _ => ⟨"CSRRS", 0x0000707f#32, 0x00002073#32⟩
  | .csrrc _ _ _ => ⟨"CSRRC", 0x0000707f#32, 0x00003073#32⟩
  | .csrrwi _ _ _ => ⟨"CSRRWI", 0x0000707f#32, 0x00005073#32⟩
  | .csrrsi _ _ _ => ⟨"CSRRSI", 0x0000707f#32, 0x00006073#32⟩
  | .csrrci _ _ _ => ⟨"CSRRCI", 0x0000707f#32, 0x00007073#32⟩

/-- One instruction of each U, J, B row and of JALR, every operand 0, in the table's order. -/
def transferSamples : List Instr :=
  [.lui 0 0, .auipc 0 0, .jal 0 0, .jalr 0 0 0, .beq 0 0 0, .bne 0 0 0, .blt 0 0 0, .bge 0 0 0, .bltu 0 0 0, .bgeu 0 0 0]

/-- One instruction of each load and store row. -/
def memorySamples : List Instr :=
  [.lb 0 0 0, .lh 0 0 0, .lw 0 0 0, .lbu 0 0 0, .lhu 0 0 0, .sb 0 0 0, .sh 0 0 0, .sw 0 0 0]

/-- One instruction of each register-immediate row. -/
def immediateSamples : List Instr :=
  [.addi 0 0 0, .slti 0 0 0, .sltiu 0 0 0, .xori 0 0 0, .ori 0 0 0, .andi 0 0 0, .slli 0 0 0, .srli 0 0 0, .srai 0 0 0]

/-- One instruction of each register-register row. -/
def registerSamples : List Instr :=
  [.add 0 0 0, .sub 0 0 0, .sll 0 0 0, .slt 0 0 0, .sltu 0 0 0, .xor 0 0 0, .srl 0 0 0, .sra 0 0 0, .or 0 0 0, .and 0 0 0]

/-- One instruction of each fence, system and CSR row. -/
def systemSamples : List Instr :=
  [.fence 0 0 0 0 0, .fenceI 0 0 0, .ecall, .ebreak, .csrrw 0 0 0, .csrrs 0 0 0, .csrrc 0 0 0, .csrrwi 0 0 0,
    .csrrsi 0 0 0, .csrrci 0 0 0]

/-- The 47 rows of R61, in the table's order. -/
def opcodeRows : List Row :=
  (transferSamples ++ memorySamples ++ immediateSamples ++ registerSamples ++ systemSamples).map Instr.row

/-- The word matches the row (R61). -/
def Row.matchesWord (r : Row) (w : Word) : Bool := w &&& r.mask = r.pattern

end Sys2Proof
end

