-- ==== Sys2Proof/Config.lean ====
section
/-! DEFINITION. What the spec leaves to the platform (00_scope.md section 5, R26): the address map's shape, the launch
values this model names for reset, and the two oracles, which are free values (constants without a body). -/

namespace Sys2Proof.Config

/-- What lies at an address (R37). -/
inductive Kind where
  /-- Main memory: holds a value, returns the last value stored. -/
  | main
  /-- A device region: answered by the oracles (R39). -/
  | io
  /-- The byte does not exist. -/
  | absent
deriving DecidableEq, Repr

/-- The three uses of an address (R38). -/
inductive Access where
  | read
  | write
  | execute
deriving DecidableEq, Repr

/-- The record the map gives an address (R37): its kind and its permission bits. The two constraints of R37 (an `io`
byte is never executable, an absent byte has no permission) hold by construction. -/
inductive Attr where
  | main (r w x : Bool)
  | io (r w : Bool)
  | absent
deriving DecidableEq, Repr

/-- A run of addresses `base .. base + size - 1` that share one record. -/
structure Region where
  base : Nat
  size : Nat
  attr : Attr
deriving DecidableEq, Repr

/-- `MemMap` (R37) as plain data: the first region that holds an address decides, an address in no region is absent.
Every total map over the 2^32 addresses can be written so (log 9). -/
abbrev MemMap := List Region

/-- DESIGN CHOICE (log 3), unsafe: the map at reset, all 2^32 bytes readable, writable, executable main memory, as the
vectors of 95_test_vectors.md have it. A launch may give any other map. -/
def resetMap : MemMap := [⟨0, 0x100000000, .main true true true⟩]

/-- DESIGN CHOICE (log 2), unsafe: `RESET_PC` (R211) is open; the programs of 95_test_vectors.md use 0x1000. -/
def resetPc : Word := 0x1000#32

/-- `CounterRead(c)` (R20): any 32-bit value, at every draw anew. A free value (log 6): it has no body, so nothing
can be proved of it. -/
opaque counterRead (draw : Nat) (c : CsrAddr) : Word

/-- Byte `i` of the answer of `IoRead(addr, n)` (R39): any value, at every draw anew. A free value (log 7). -/
opaque ioRead (draw : Nat) (addr : Word) (n : Nat) (i : Nat) : Byte

end Sys2Proof.Config
end

