-- ==== Sys2Proof/Machine/State.lean ====
section
/-! DEFINITION. The state of the hart (R27), plain data, the causes of a trap (R181), the reasons a step can stop, and
the state right after reset (R25, R210). -/

namespace Sys2Proof.Machine

/-- The nine causes of an exception (R181). -/
inductive Cause where
  | instructionAddressMisaligned
  | instructionAccessFault
  | illegalInstruction
  | breakpoint
  | loadAddressMisaligned
  | loadAccessFault
  | storeAddressMisaligned
  | storeAccessFault
  | environmentCall
deriving DecidableEq, Repr

/-- The outcome `Trapped(cause, value, pc, state)` of R186, less the state, which is the state that holds the record. -/
structure Trap where
  cause : Cause
  value : Word
  pc : Word
deriving DecidableEq, Repr

/-- One access to a device region, as the oracles see it (R39): its first address, its width in bytes and the value
read or written, zero-extended. -/
inductive IoEvent where
  | read (addr : Word) (bytes : Nat) (value : Word)
  | write (addr : Word) (bytes : Nat) (value : Word)
deriving DecidableEq, Repr

/-- Main memory: (address, byte) pairs, addresses strictly rising, none equal to what an unlisted address reads as
(log 15). -/
abbrev Memory := List Host.Cell

/-- What a byte of memory that is not listed reads as. DESIGN CHOICE (log 5), unsafe: zero; the spec leaves the launch
contents open (R212). -/
def unlistedByte : Byte := 0

/-- The state: the tuple of R27, the sticky trap record R186 allows, the launch's address map (R26, R37), and two
fields of the model's own. -/
structure State where
  /-- `x1` to `x31`; `x0` is not stored (R10, R11, R27). -/
  regs : Vector Word 31
  /-- The address of the instruction being executed (R13). -/
  pc : Word
  /-- The bytes of main memory (R27, R37). -/
  mem : Memory
  /-- The byte addresses stored to since the last FENCE.I, strictly rising (R24, log 15). -/
  dirty : List Nat
  /-- The trap that ended the run, if one has (R186: a sticky field, never cleared). -/
  trap : Option Trap
  /-- The parameter `MemMap`, constant over a run (R37, R26). -/
  map : Config.MemMap
  /-- The model's own: how many oracle answers have been drawn; it selects the next free value (log 6, log 7). -/
  draws : Nat
  /-- The model's own: the device accesses made, oldest first, as handed to the oracles (R39). -/
  io : List IoEvent
deriving DecidableEq, Repr

/-- Why the machine stops for good. -/
inductive Fault where
  /-- Raised by `step` alone, in a state that already holds a trap: the run ended with that outcome and no rule
  continues from it (R186, R206). Safe: nothing is claimed of what the environment does next. -/
  | trapped (t : Trap)
deriving DecidableEq, Repr

/-- Why the model gives a step no meaning. -/
inductive Refusal where
  /-- Raised by an arm of `exec` whose instruction has no meaning yet: no arm does. Safe. -/
  | notModelled (mnemonic : String)
  /-- Raised by `step`'s fetch alone: a byte of the word at `addr` was stored to since the last FENCE.I; the spec's own
  refusal `StaleFetch` (R35, R44). Safe: neither the old nor the new bytes are claimed. -/
  | staleFetch (addr : Word)
deriving DecidableEq, Repr

/-- What the environment provides at launch (R212): the address map, `RESET_PC`, the contents of memory and the values
of `x1` to `x31`. -/
structure Launch where
  map : Config.MemMap
  resetPc : Word
  mem : Memory
  regs : Vector Word 31
deriving DecidableEq, Repr

/-- The launch state of R212. -/
def State.launch (l : Launch) : State :=
  { regs := l.regs, pc := l.resetPc, mem := l.mem, dirty := [], trap := none, map := l.map, draws := 0, io := [] }

/-- Right after reset (R25, R210): `pc = RESET_PC`, `dirty` empty, no trap recorded, memory with nothing listed. What
the spec leaves open is named in the log: the registers 0 (log 1), `RESET_PC` (log 2), the map (log 3). -/
def State.reset : State :=
  { regs := Vector.replicate 31 0, pc := Config.resetPc, mem := [], dirty := [], trap := none,
    map := Config.resetMap, draws := 0, io := [] }

end Sys2Proof.Machine
end

