-- ==== Sys2Proof/Machine/Ops.lean ====
section
/-! DEFINITION. The named operations of R6 over registers, memory, the map, the `dirty` set and the CSRs, and taking an
exception (R186). Every meaning is written over these. -/

namespace Sys2Proof.Machine

open Sys2Proof.Config (Kind Access Attr Region MemMap)

/-- What a meaning answers. -/
abbrev Result := Host.Outcome State Fault Refusal

/-! ### Registers and pc (R6, R11, R14) -/

/-- `x[r]` (R6): `x0` reads as zero (R11). -/
def State.reg (s : State) (r : RegIdx) : Word :=
  if r = 0 then 0 else s.regs[r.toNat - 1]'(by have := r.isLt; omega)

/-- `x[r] <- v` (R6): a write to `x0` is discarded (R11). -/
def State.setReg (s : State) (r : RegIdx) (v : Word) : State :=
  if r = 0 then s else { s with regs := s.regs.set (r.toNat - 1) v (by have := r.isLt; omega) }

/-- `pc <- target`. -/
def State.setPc (s : State) (target : Word) : State := { s with pc := target }

/-- `pc <- pc + 4`, modulo 2^32 (R14, R15). -/
def State.advance (s : State) : State := s.setPc (s.pc + 4)

/-! ### Memory as data -/

/-- The byte at an address. -/
def Memory.read : Memory → Nat → Byte
  | [], _ => unlistedByte
  | (k, v) :: m, a => if a = k then v else Memory.read m a

/-- The memory with the byte `b` at address `a`, in canonical form again. -/
def Memory.write : Memory → Nat → Byte → Memory
  | [], a, b => if b = unlistedByte then [] else [(a, b)]
  | (k, v) :: m, a, b =>
    if a < k then (if b = unlistedByte then (k, v) :: m else (a, b) :: (k, v) :: m)
    else if a = k then (if b = unlistedByte then m else (a, b) :: m)
    else (k, v) :: Memory.write m a b

/-- The canonical form: addresses strictly rising and within the 2^32 bytes of R23, no entry equal to what an unlisted
address reads as. -/
abbrev Memory.wf (m : Memory) : Prop :=
  m.Pairwise (fun c d => c.1 < d.1) ∧ ∀ c ∈ m, c.1 < 2 ^ 32 ∧ c.2 ≠ unlistedByte

/-- A set of byte addresses with one more, kept strictly rising (R24). -/
def insertAddr : List Nat → Nat → List Nat
  | [], a => [a]
  | k :: ks, a => if a < k then a :: k :: ks else if a = k then k :: ks else k :: insertAddr ks a

/-- The byte of memory at an address: the model's read of one byte. -/
def State.byteAt (s : State) (a : Word) : Byte := s.mem.read a.toNat

/-- The `i`-th byte address of an access at `addr`, modulo 2^32 (R33, R34). -/
def byteAddr (addr : Word) (i : Nat) : Word := addr + BitVec.ofNat 32 i

/-- The `n` bytes of `v` from `addr` up: `v[8i+7 : 8i]` at `addr + i`, little-endian (R30, R34). -/
def storeBytes (m : Memory) (addr : Word) (v : Word) : Nat → Memory
  | 0 => m
  | n + 1 => (storeBytes m addr v n).write (byteAddr addr n).toNat (wordByte v n)

/-- `dirty` with the `n` byte addresses from `addr` up (R34). -/
def markDirty (d : List Nat) (addr : Word) : Nat → List Nat
  | 0 => d
  | n + 1 => insertAddr (markDirty d addr n) (byteAddr addr n).toNat

/-! ### The address map (R37, R38) -/

/-- The address lies in the region. -/
def regionHas (r : Region) (a : Nat) : Bool := decide (r.base ≤ a ∧ a < r.base + r.size)

/-- `MemMap(a)` (R37). -/
def mapAttr : MemMap → Nat → Attr
  | [], _ => .absent
  | r :: m, a => if regionHas r a then r.attr else mapAttr m a

/-- The `kind` of a record (R37). -/
def attrKind : Attr → Kind
  | .main _ _ _ => .main
  | .io _ _ => .io
  | .absent => .absent

/-- The permission bit of a record for an access (R37, R38); an `io` byte is never executable. -/
def attrAllows : Attr → Access → Bool
  | .main r _ _, .read => r
  | .main _ w _, .write => w
  | .main _ _ x, .execute => x
  | .io r _, .read => r
  | .io _ w, .write => w
  | .io _ _, .execute => false
  | .absent, _ => false

/-- `Kind(addr)` (R38). -/
def kindAt (m : MemMap) (a : Word) : Kind := attrKind (mapAttr m a.toNat)

/-- The permission bit of one byte (R38). -/
def allowsAt (m : MemMap) (a : Word) (op : Access) : Bool := attrAllows (mapAttr m a.toNat) op

/-- `Permitted(addr, n, op)` (R38): all `n` bytes have one kind, which is not `none`, and each has the permission
bit. -/
def permitted (m : MemMap) (addr : Word) (n : Nat) (op : Access) : Bool :=
  decide (kindAt m addr ≠ .absent) &&
    (List.range n).all fun i =>
      decide (kindAt m (byteAddr addr i) = kindAt m addr) && allowsAt m (byteAddr addr i) op

/-! ### Taking an exception (R180 to R186) -/

/-- `E(info)`: a cause with the value it records (R183). -/
structure Exn where
  cause : Cause
  value : Word
deriving DecidableEq, Repr

/-- The label of a cause (R181). No register holds it and no rule depends on it (R187). -/
def causeCode : Cause → Nat
  | .instructionAddressMisaligned => 0
  | .instructionAccessFault => 1
  | .illegalInstruction => 2
  | .breakpoint => 3
  | .loadAddressMisaligned => 4
  | .loadAccessFault => 5
  | .storeAddressMisaligned => 6
  | .storeAccessFault => 7
  | .environmentCall => 11

/-- The state that holds the outcome `Trapped(cause, value, pc, s)` (R186): the state before the step, precise (R185),
with the record in its sticky field. Nothing is saved in the hart, no mode changes, control goes to no address; there is
no return from it (R187). -/
def State.takeTrap (s : State) (e : Exn) : State := { s with trap := some ⟨e.cause, e.value, s.pc⟩ }

/-- `raise E(info)` (R6): the instruction stops, none of its writes takes place, the trap of R186 is taken. `s` is the
state before the instruction. -/
def raise (e : Exn) (s : State) : Result := .next (s.takeTrap e)

/-! ### The memory primitives (R33, R34) -/

/-- The three access widths (R31). -/
inductive Size where
  | byte
  | half
  | word
deriving DecidableEq, Repr

/-- The number of bytes `n` of an access. -/
def sizeBytes : Size → Nat
  | .byte => 1
  | .half => 2
  | .word => 4

/-- The address is a multiple of the access width (R32). -/
def aligned (addr : Word) (n : Size) : Bool := addr.toNat % sizeBytes n == 0

/-- The value of `n` bytes, byte 0 at the lowest address (R30, R33), zero-extended to 32 bits. -/
def assemble (b : Nat → Byte) : Size → Word
  | .byte => (b 0).setWidth 32
  | .half => (b 1 ++ b 0).setWidth 32
  | .word => leWord (b 0) (b 1) (b 2) (b 3)

/-- The `n` bytes of main memory at `addr`. -/
def State.mainValue (s : State) (addr : Word) (n : Size) : Word :=
  assemble (fun i => s.byteAt (byteAddr addr i)) n

/-- The next answer of `IoRead(addr, n)` (R39), a free value. -/
def State.ioValue (s : State) (addr : Word) (n : Size) : Word :=
  assemble (Config.ioRead s.draws addr (sizeBytes n)) n

/-- After a read of a device region: one oracle answer consumed, one access made (R39). -/
def State.ioReadDone (s : State) (addr : Word) (n : Size) : State :=
  { s with draws := s.draws + 1, io := s.io ++ [.read addr (sizeBytes n) (s.ioValue addr n)] }

/-- The low `8n` bits of a value, zero-extended: what a store of `n` bytes hands over (R155). -/
def lowBytes (n : Size) (v : Word) : Word := assemble (wordByte v) n

/-- After a write to a device region: the oracle received the access (R34, R39). -/
def State.ioWriteDone (s : State) (addr : Word) (n : Size) (v : Word) : State :=
  { s with io := s.io ++ [.write addr (sizeBytes n) (lowBytes n v)] }

/-- After a write to main memory: the bytes stored and marked (R34). -/
def State.mainStore (s : State) (addr : Word) (n : Size) (v : Word) : State :=
  { s with mem := storeBytes s.mem addr v (sizeBytes n), dirty := markDirty s.dirty addr (sizeBytes n) }

/-- `MemRead(addr, n)` (R33): the value, zero-extended, and the state after the access; or the exception. The
alignment check comes first. -/
def memRead (addr : Word) (n : Size) (s : State) : Except Exn (Word × State) :=
  if aligned addr n = false then .error ⟨.loadAddressMisaligned, addr⟩
  else if permitted s.map addr (sizeBytes n) .read = false then .error ⟨.loadAccessFault, addr⟩
  else if kindAt s.map addr = .main then .ok (s.mainValue addr n, s)
  else .ok (s.ioValue addr n, s.ioReadDone addr n)

/-- `MemWrite(addr, n, v)` (R34) with `v` the low `8n` bits of a register. The alignment check comes first. -/
def memWrite (addr : Word) (n : Size) (v : Word) (s : State) : Except Exn State :=
  if aligned addr n = false then .error ⟨.storeAddressMisaligned, addr⟩
  else if permitted s.map addr (sizeBytes n) .write = false then .error ⟨.storeAccessFault, addr⟩
  else if kindAt s.map addr = .main then .ok (s.mainStore addr n v)
  else .ok (s.ioWriteDone addr n v)

/-! ### The CSR primitives (R17 to R20) -/

/-- The six counter halves, the only CSRs of this hardware (R17): `cycle`, `time`, `instret` and their high halves. -/
def isCounter (c : CsrAddr) : Bool :=
  c == 0xC00#12 || c == 0xC01#12 || c == 0xC02#12 || c == 0xC80#12 || c == 0xC81#12 || c == 0xC82#12

/-- `CSRRead(c)` (R18) of the instruction word `inst`: a draw (R20), or IllegalInstruction for a CSR that does not
exist. -/
def csrRead (inst : Word) (c : CsrAddr) (s : State) : Except Exn (Word × State) :=
  if isCounter c then .ok (Config.counterRead s.draws c, { s with draws := s.draws + 1 })
  else .error ⟨.illegalInstruction, inst⟩

/-- `CSRWrite(c, v)` (R19): every CSR is read-only, so it always raises. -/
def csrWrite (inst : Word) (_c : CsrAddr) (_v : Word) (_s : State) : Except Exn State :=
  .error ⟨.illegalInstruction, inst⟩

/-! ### Finishing an instruction -/

/-- `x[rd] <- v; pc <- pc + 4`. -/
def writeBack (rd : RegIdx) (v : Word) (s : State) : Result := .next (s.setReg rd v).advance

end Sys2Proof.Machine
end

