-- ==== Sys2Proof/Machine/Operands.lean ====
section
/-! DEFINITION. The operand forms: every immediate as a 32-bit value (R54 to R59), the one addressing mode (R36), shift
amounts (R59, R83) and transfer targets (R14). -/

namespace Sys2Proof.Machine

/-- `sext_N(v)` to 32 bits (R5). -/
def sext {n : Nat} (v : BitVec n) : Word := v.signExtend 32

/-- `zext_N(v)` to 32 bits (R5). -/
def zext {n : Nat} (v : BitVec n) : Word := v.setWidth 32

/-- The I-immediate (R54) and the S-immediate (R55): 12 bits, sign-extended. -/
def imm12 (imm : BitVec 12) : Word := sext imm

/-- The B-immediate (R56): a 13-bit byte offset, sign-extended. -/
def immB (offset : BitVec 13) : Word := sext offset

/-- The J-immediate (R58): a 21-bit byte offset, sign-extended. -/
def immJ (offset : BitVec 21) : Word := sext offset

/-- The U-immediate (R57): the field in bits 31 to 12, zeros below. -/
def immU (imm : BitVec 20) : Word := imm ++ 0#12

/-- The CSR immediate (R59): 5 bits, zero-extended. -/
def uimm5 (uimm : BitVec 5) : Word := zext uimm

/-- The effective address `x[rs1] + sext_12(imm)`, modulo 2^32 (R36). -/
def effAddr (rs1 : RegIdx) (imm : BitVec 12) (s : State) : Word := s.reg rs1 + imm12 imm

/-- A shift amount held in a register: its low 5 bits (R83, R87, R88). -/
def shiftAmount (v : Word) : Nat := (v.extractLsb' 0 5).toNat

/-- A target relative to the transferring instruction (R14). -/
def pcRelative (offset : Word) (s : State) : Word := s.pc + offset

/-- JALR's target: the sum with bit 0 cleared (R125). -/
def jalrTarget (rs1 : RegIdx) (imm : BitVec 12) (s : State) : Word := (s.reg rs1 + imm12 imm) &&& 0xFFFFFFFE#32

end Sys2Proof.Machine
end

