-- ==== Sys2Proof/Machine/Flags.lean ====
section
/-! DEFINITION. The hardware has no flags (R16): what other machines compute into flags is here the comparison of two
words (R4), used as a condition or as the value 1 or 0, and the three shifts (R4). -/

namespace Sys2Proof.Machine

/-- `a <s b` (R4). -/
def ltS (a b : Word) : Bool := a.slt b

/-- `a <u b` (R4). -/
def ltU (a b : Word) : Bool := a.ult b

/-- A comparison used as a value: 1 when true, 0 when false (R4). -/
def flagWord (b : Bool) : Word := if b then 1 else 0

/-- `a << n`, filling with zeros (R4). -/
def shiftLeft (a : Word) (n : Nat) : Word := a <<< n

/-- `a >>u n`, filling with zeros (R4). -/
def shiftRightU (a : Word) (n : Nat) : Word := a >>> n

/-- `a >>s n`, filling with copies of bit 31 (R4). -/
def shiftRightS (a : Word) (n : Nat) : Word := a.sshiftRight n

end Sys2Proof.Machine
end

