-- ==== Sys2Proof/Machine/AluImm.lean ====
section
/-! DEFINITION. The nine register-immediate instructions (R110 to R119). -/

namespace Sys2Proof.Machine

/-- ADDI (R110, R111): addition modulo 2^32. -/
def execAddi (rd rs1 : RegIdx) (imm : BitVec 12) (s : State) : Result := writeBack rd (s.reg rs1 + imm12 imm) s

/-- SLTI (R110, R112): 1 when less, signed. -/
def execSlti (rd rs1 : RegIdx) (imm : BitVec 12) (s : State) : Result := writeBack rd (flagWord (ltS (s.reg rs1) (imm12 imm))) s

/-- SLTIU (R110, R113): 1 when less, unsigned; the immediate is sign-extended first. -/
def execSltiu (rd rs1 : RegIdx) (imm : BitVec 12) (s : State) : Result := writeBack rd (flagWord (ltU (s.reg rs1) (imm12 imm))) s

/-- XORI (R110, R114): bitwise exclusive or. -/
def execXori (rd rs1 : RegIdx) (imm : BitVec 12) (s : State) : Result := writeBack rd (s.reg rs1 ^^^ imm12 imm) s

/-- ORI (R110, R115): bitwise or. -/
def execOri (rd rs1 : RegIdx) (imm : BitVec 12) (s : State) : Result := writeBack rd (s.reg rs1 ||| imm12 imm) s

/-- ANDI (R110, R116): bitwise and. -/
def execAndi (rd rs1 : RegIdx) (imm : BitVec 12) (s : State) : Result := writeBack rd (s.reg rs1 &&& imm12 imm) s

/-- SLLI (R110, R117): shift left by `shamt`. -/
def execSlli (rd rs1 : RegIdx) (shamt : BitVec 5) (s : State) : Result := writeBack rd (shiftLeft (s.reg rs1) shamt.toNat) s

/-- SRLI (R110, R118): shift right by `shamt`, zeros in. -/
def execSrli (rd rs1 : RegIdx) (shamt : BitVec 5) (s : State) : Result := writeBack rd (shiftRightU (s.reg rs1) shamt.toNat) s

/-- SRAI (R110, R119): shift right by `shamt`, sign bits in. -/
def execSrai (rd rs1 : RegIdx) (shamt : BitVec 5) (s : State) : Result := writeBack rd (shiftRightS (s.reg rs1) shamt.toNat) s


end Sys2Proof.Machine
end

