-- ==== Sys2Proof/Machine/AluReg.lean ====
section
/-! DEFINITION. The ten register-register instructions (R80 to R91): a result to `x[rd]`, `pc + 4`, no exception of their own. -/

namespace Sys2Proof.Machine

/-- ADD (R80, R81): addition modulo 2^32. -/
def execAdd (rd rs1 rs2 : RegIdx) (s : State) : Result := writeBack rd (s.reg rs1 + s.reg rs2) s

/-- SUB (R80, R82): subtraction modulo 2^32. -/
def execSub (rd rs1 rs2 : RegIdx) (s : State) : Result := writeBack rd (s.reg rs1 - s.reg rs2) s

/-- SLL (R80, R83): shift left by `x[rs2][4:0]`. -/
def execSll (rd rs1 rs2 : RegIdx) (s : State) : Result := writeBack rd (shiftLeft (s.reg rs1) (shiftAmount (s.reg rs2))) s

/-- SLT (R80, R84): 1 when less, signed. -/
def execSlt (rd rs1 rs2 : RegIdx) (s : State) : Result := writeBack rd (flagWord (ltS (s.reg rs1) (s.reg rs2))) s

/-- SLTU (R80, R85): 1 when less, unsigned. -/
def execSltu (rd rs1 rs2 : RegIdx) (s : State) : Result := writeBack rd (flagWord (ltU (s.reg rs1) (s.reg rs2))) s

/-- XOR (R80, R86): bitwise exclusive or. -/
def execXor (rd rs1 rs2 : RegIdx) (s : State) : Result := writeBack rd (s.reg rs1 ^^^ s.reg rs2) s

/-- SRL (R80, R87): shift right by `x[rs2][4:0]`, zeros in. -/
def execSrl (rd rs1 rs2 : RegIdx) (s : State) : Result := writeBack rd (shiftRightU (s.reg rs1) (shiftAmount (s.reg rs2))) s

/-- SRA (R80, R88): shift right by `x[rs2][4:0]`, sign bits in. -/
def execSra (rd rs1 rs2 : RegIdx) (s : State) : Result := writeBack rd (shiftRightS (s.reg rs1) (shiftAmount (s.reg rs2))) s

/-- OR (R80, R89): bitwise or. -/
def execOr (rd rs1 rs2 : RegIdx) (s : State) : Result := writeBack rd (s.reg rs1 ||| s.reg rs2) s

/-- AND (R80, R90): bitwise and. -/
def execAnd (rd rs1 rs2 : RegIdx) (s : State) : Result := writeBack rd (s.reg rs1 &&& s.reg rs2) s


end Sys2Proof.Machine
end

