-- ==== Sys2Proof/Machine/Branches.lean ====
section
/-! DEFINITION. The six conditional branches (R160 to R167). -/

namespace Sys2Proof.Machine

/-- `Branch(cond)` (R160): a taken branch checks its target, a branch not taken never raises. -/
def branchOp (taken : Bool) (offset : BitVec 13) (s : State) : Result :=
  if taken then
    if (pcRelative (immB offset) s).getLsbD 1 then
      raise ⟨.instructionAddressMisaligned, pcRelative (immB offset) s⟩ s
    else .next (s.setPc (pcRelative (immB offset) s))
  else .next s.advance

/-- BEQ (R160, R161). -/
def execBeq (rs1 rs2 : RegIdx) (offset : BitVec 13) (s : State) : Result :=
  branchOp (s.reg rs1 == s.reg rs2) offset s

/-- BNE (R160, R162). -/
def execBne (rs1 rs2 : RegIdx) (offset : BitVec 13) (s : State) : Result :=
  branchOp (s.reg rs1 != s.reg rs2) offset s

/-- BLT (R160, R163). -/
def execBlt (rs1 rs2 : RegIdx) (offset : BitVec 13) (s : State) : Result :=
  branchOp (ltS (s.reg rs1) (s.reg rs2)) offset s

/-- BGE (R160, R164). -/
def execBge (rs1 rs2 : RegIdx) (offset : BitVec 13) (s : State) : Result :=
  branchOp (!ltS (s.reg rs1) (s.reg rs2)) offset s

/-- BLTU (R160, R165). -/
def execBltu (rs1 rs2 : RegIdx) (offset : BitVec 13) (s : State) : Result :=
  branchOp (ltU (s.reg rs1) (s.reg rs2)) offset s

/-- BGEU (R160, R166). -/
def execBgeu (rs1 rs2 : RegIdx) (offset : BitVec 13) (s : State) : Result :=
  branchOp (!ltU (s.reg rs1) (s.reg rs2)) offset s


end Sys2Proof.Machine
end

