-- ==== Sys2Proof/Machine/Csr.lean ====
section
/-! DEFINITION. The six CSR instructions (R130 to R137). `inst`, the value an illegal one records (R183), is the word itself: its
encoding, since every word that decodes has one (R65, log 10). -/

namespace Sys2Proof.Machine

/-- The three things a CSR instruction writes (R130). -/
inductive CsrOp where
  | write
  | set
  | clear
deriving DecidableEq, Repr

/-- The value to write, from the value read and the source (R130). -/
def csrNew : CsrOp → Word → Word → Word
  | .write, _, src => src
  | .set, t, src => t ||| src
  | .clear, t, src => t &&& ~~~src

/-- `t <- CSRRead(csr)` when the CSR is read at all, else 0 (R130). -/
def csrReadIf (doRead : Bool) (inst : Word) (c : CsrAddr) (s : State) : Except Exn (Word × State) :=
  if doRead then csrRead inst c s else .ok (0, s)

/-- `CSRWrite(csr, new)` when the CSR is written at all (R130). -/
def csrWriteIf (doWrite : Bool) (inst : Word) (c : CsrAddr) (v : Word) (s : State) : Except Exn State :=
  if doWrite then csrWrite inst c v s else .ok s

/-- `CSRInstr(op, do_read, do_write)` (R130) of the word `inst`. An exception leaves the state as it was, the draw
included (R185). -/
def csrInstr (inst : Word) (op : CsrOp) (src : Word) (doRead doWrite : Bool) (rd : RegIdx) (c : CsrAddr) (s : State) :
    Result :=
  match csrReadIf doRead inst c s with
  | .error e => raise e s
  | .ok (t, s1) =>
    match csrWriteIf doWrite inst c (csrNew op t src) s1 with
    | .error e => raise e s
    | .ok s2 => writeBack rd t s2

/-- CSRRW (R130, R131, R137). -/
def execCsrrw (rd : RegIdx) (csr : CsrAddr) (rs1 : RegIdx) (s : State) : Result :=
  csrInstr (encode (.csrrw rd csr rs1)) .write (s.reg rs1) (rd != 0) true rd csr s

/-- CSRRS (R130, R132, R137). -/
def execCsrrs (rd : RegIdx) (csr : CsrAddr) (rs1 : RegIdx) (s : State) : Result :=
  csrInstr (encode (.csrrs rd csr rs1)) .set (s.reg rs1) true (rs1 != 0) rd csr s

/-- CSRRC (R130, R133, R137). -/
def execCsrrc (rd : RegIdx) (csr : CsrAddr) (rs1 : RegIdx) (s : State) : Result :=
  csrInstr (encode (.csrrc rd csr rs1)) .clear (s.reg rs1) true (rs1 != 0) rd csr s

/-- CSRRWI (R130, R134, R137). -/
def execCsrrwi (rd : RegIdx) (csr : CsrAddr) (uimm : BitVec 5) (s : State) : Result :=
  csrInstr (encode (.csrrwi rd csr uimm)) .write (uimm5 uimm) (rd != 0) true rd csr s

/-- CSRRSI (R130, R135, R137). -/
def execCsrrsi (rd : RegIdx) (csr : CsrAddr) (uimm : BitVec 5) (s : State) : Result :=
  csrInstr (encode (.csrrsi rd csr uimm)) .set (uimm5 uimm) true (uimm != 0) rd csr s

/-- CSRRCI (R130, R136, R137). -/
def execCsrrci (rd : RegIdx) (csr : CsrAddr) (uimm : BitVec 5) (s : State) : Result :=
  csrInstr (encode (.csrrci rd csr uimm)) .clear (uimm5 uimm) true (uimm != 0) rd csr s


end Sys2Proof.Machine
end

