-- ==== Sys2Proof/Machine/Jumps.lean ====
section
/-! DEFINITION. JAL (R175) and JALR (R125). -/

namespace Sys2Proof.Machine

/-- A jump with a link (R125, R175): a target with bit 1 set raises, and then the link is not written. -/
def jumpOp (target : Word) (rd : RegIdx) (s : State) : Result :=
  if target.getLsbD 1 then raise ⟨.instructionAddressMisaligned, target⟩ s
  else .next ((s.setReg rd (s.pc + 4)).setPc target)

/-- JAL (R175). -/
def execJal (rd : RegIdx) (offset : BitVec 21) (s : State) : Result := jumpOp (pcRelative (immJ offset) s) rd s

/-- JALR (R125): the target is computed from the old `x[rs1]`. -/
def execJalr (rd rs1 : RegIdx) (imm : BitVec 12) (s : State) : Result := jumpOp (jalrTarget rs1 imm s) rd s

end Sys2Proof.Machine
end

