-- ==== Sys2Proof/Machine/Loads.lean ====
section
/-! DEFINITION. The five loads (R100 to R105). -/

namespace Sys2Proof.Machine

/-- The common shape of the loads (R100): `MemRead`, the extension, `x[rd]`, `pc + 4`; an exception leaves the state as it
was (R185). The access is made even when `rd = x0` (R70). -/
def loadOp (n : Size) (extend : Word → Word) (rd rs1 : RegIdx) (imm : BitVec 12) (s : State) : Result :=
  match memRead (effAddr rs1 imm s) n s with
  | .error e => raise e s
  | .ok (v, s1) => writeBack rd (extend v) s1

/-- `sext_8` of the low byte (R101). -/
def sextByte (v : Word) : Word := sext (v.setWidth 8)

/-- `sext_16` of the low halfword (R102). -/
def sextHalf (v : Word) : Word := sext (v.setWidth 16)

/-- `zext_8` of the low byte (R104). -/
def zextByte (v : Word) : Word := zext (v.setWidth 8)

/-- `zext_16` of the low halfword (R105). -/
def zextHalf (v : Word) : Word := zext (v.setWidth 16)

/-- LB (R100, R101). -/
def execLb (rd rs1 : RegIdx) (imm : BitVec 12) (s : State) : Result := loadOp .byte sextByte rd rs1 imm s

/-- LH (R100, R102). -/
def execLh (rd rs1 : RegIdx) (imm : BitVec 12) (s : State) : Result := loadOp .half sextHalf rd rs1 imm s

/-- LW (R100, R103). -/
def execLw (rd rs1 : RegIdx) (imm : BitVec 12) (s : State) : Result := loadOp .word id rd rs1 imm s

/-- LBU (R100, R104). -/
def execLbu (rd rs1 : RegIdx) (imm : BitVec 12) (s : State) : Result := loadOp .byte zextByte rd rs1 imm s

/-- LHU (R100, R105). -/
def execLhu (rd rs1 : RegIdx) (imm : BitVec 12) (s : State) : Result := loadOp .half zextHalf rd rs1 imm s


end Sys2Proof.Machine
end

