-- ==== Sys2Proof/Machine/Stores.lean ====
section
/-! DEFINITION. The three stores (R155 to R158). -/

namespace Sys2Proof.Machine

/-- The common shape of the stores (R155): `MemWrite` of the low bytes of `x[rs2]`, then `pc + 4`; an exception leaves
the state as it was (R185). -/
def storeOp (n : Size) (rs2 rs1 : RegIdx) (imm : BitVec 12) (s : State) : Result :=
  match memWrite (effAddr rs1 imm s) n (s.reg rs2) s with
  | .error e => raise e s
  | .ok s1 => .next s1.advance

/-- SB (R155, R156). -/
def execSb (rs2 rs1 : RegIdx) (imm : BitVec 12) (s : State) : Result := storeOp .byte rs2 rs1 imm s

/-- SH (R155, R157). -/
def execSh (rs2 rs1 : RegIdx) (imm : BitVec 12) (s : State) : Result := storeOp .half rs2 rs1 imm s

/-- SW (R155, R158). -/
def execSw (rs2 rs1 : RegIdx) (imm : BitVec 12) (s : State) : Result := storeOp .word rs2 rs1 imm s


end Sys2Proof.Machine
end

