-- ==== Sys2Proof/Machine/System.lean ====
section
/-! DEFINITION. ECALL, EBREAK, FENCE and FENCE.I (R145 to R149). -/

namespace Sys2Proof.Machine

/-- ECALL (R146): raises EnvironmentCall with value 0 and does nothing else. -/
def execEcall (s : State) : Result := raise ⟨.environmentCall, 0⟩ s

/-- EBREAK (R147): raises Breakpoint with value 0 and does nothing else. -/
def execEbreak (s : State) : Result := raise ⟨.breakpoint, 0⟩ s

/-- FENCE (R148): every access already completes in program order before the next instruction, so only `pc` moves; the
fields are ignored (R69). -/
def execFence (_fm _pred _succ : BitVec 4) (_rs1 _rd : RegIdx) (s : State) : Result := .next s.advance

/-- FENCE.I (R149): `dirty` becomes empty; the fields are ignored (R69). -/
def execFenceI (_imm : BitVec 12) (_rs1 _rd : RegIdx) (s : State) : Result := .next { s with dirty := [] }.advance

end Sys2Proof.Machine
end

