-- ==== Sys2Proof/Machine/Upper.lean ====
section
/-! DEFINITION. LUI and AUIPC (R170 to R172). -/

namespace Sys2Proof.Machine

/-- LUI (R170, R171). -/
def execLui (rd : RegIdx) (imm : BitVec 20) (s : State) : Result := writeBack rd (immU imm) s

/-- AUIPC (R170, R172): `pc` is the address of the AUIPC itself (R13). -/
def execAuipc (rd : RegIdx) (imm : BitVec 20) (s : State) : Result := writeBack rd (pcRelative (immU imm) s) s

end Sys2Proof.Machine
end

