-- ==== Sys2Proof/Machine/Fetch.lean ====
section
/-! DEFINITION. Fetching an instruction's bytes (R35, R44), one step of the hart (R7, R184), and the placement of a word
where the next fetch takes it. -/

namespace Sys2Proof.Machine

/-- What `Fetch(addr)` answers (R35). -/
inductive Fetched where
  | word (w : Word)
  | fault (e : Exn)
  | stale (addr : Word)
deriving DecidableEq, Repr

/-- A byte of the 4 at `addr` was stored to since the last FENCE.I (R35, R44). -/
def isStale (dirty : List Nat) (addr : Word) : Bool :=
  (List.range 4).any fun i => decide ((byteAddr addr i).toNat ∈ dirty)

/-- `Fetch(addr)` (R35): permission first, then the `dirty` test, then the four bytes of main memory. -/
def fetch (addr : Word) (s : State) : Fetched :=
  if permitted s.map addr 4 .execute = false then .fault ⟨.instructionAccessFault, addr⟩
  else if isStale s.dirty addr then .stale addr
  else .word (s.mainValue addr .word)

/-- `step()` (R7), its checks in the order of R184; a state that holds a trap has no step (R186). -/
def hartStep (s : State) : Host.Outcome State Fault Refusal :=
  match s.trap with
  | some t => .fault (.trapped t)
  | none =>
    if s.pc.extractLsb' 0 2 ≠ 0#2 then raise ⟨.instructionAddressMisaligned, s.pc⟩ s
    else
      match fetch s.pc s with
      | .fault e => raise e s
      | .stale a => .refused (.staleFetch a)
      | .word w =>
        match decode w with
        | .error _ => raise ⟨.illegalInstruction, w⟩ s
        | .ok i => exec i s

/-- `pc` with its two low bits cleared. -/
def alignedPc (pc : Word) : Word := pc &&& 0xFFFFFFFC#32

/-- The map, in which the 4 bytes at `pc` can be fetched: itself where they already can. -/
def fetchableMap (m : Config.MemMap) (pc : Word) : Config.MemMap :=
  if permitted m pc 4 .execute then m else ⟨pc.toNat, 4, .main true true true⟩ :: m

/-- The state in which the very next step fetches and runs the word `v` (log 8): the word stands at `pc`, its bytes are
not `dirty`, `pc` is aligned, the bytes can be fetched and no trap is recorded. In a state that could fetch at `pc`
already, nothing but the four bytes of memory changes. -/
def placeWord (v : Word) (s : State) : State :=
  { s with
    pc := alignedPc s.pc
    mem := storeBytes s.mem (alignedPc s.pc) v 4
    dirty := s.dirty.filter fun a => !decide ((alignedPc s.pc).toNat ≤ a ∧ a < (alignedPc s.pc).toNat + 4)
    trap := none
    map := fetchableMap s.map (alignedPc s.pc) }

end Sys2Proof.Machine
end

