-- ==== Sys2Proof/Machine/Step.lean ====
section
/-! DEFINITION. The step of the machine, and the placement of an instruction for the host's questions. -/

namespace Sys2Proof.Machine

/-- One instruction step (R7). -/
def step (s : State) : Host.Outcome State Fault Refusal := hartStep s

/-- The state with the table row's word `w` of `nbits` bits where `step` fetches its next instruction. -/
def State.withFetchWord (s : State) (nbits w : Nat) : State := placeWord (tableWord nbits w) s

end Sys2Proof.Machine
end

