-- ==== Sys2Proof/Safety.lean ====
section
/-! DEFINITION. What counts as a good state and a good run, in the terms the statements use: the launch premises (R212),
the shapes a run ends in (R206), the invariant of the machine, and what an observer reads of a state. -/

namespace Sys2Proof.Machine

/-! ### Launch premises (R212) -/

/-- `AlignedEntry`: `RESET_PC[1:0] = 0`. -/
def Launch.alignedEntry (l : Launch) : Prop := l.resetPc.extractLsb' 0 2 = 0#2

/-- `MapWellFormed` of one record: an `io` byte is not executable, an absent byte has no permission (R37). -/
def mapWellFormed (m : Config.MemMap) : Prop :=
  ∀ a : Word, (kindAt m a = .io → allowsAt m a .execute = false) ∧
    (kindAt m a = .absent → ∀ op, allowsAt m a op = false)

/-- One word of `ProgramLoaded`: its four bytes stand at `addr`, little-endian, in executable main memory. -/
def State.wordLoaded (s : State) (addr : Word) (w : Word) : Prop :=
  s.mainValue addr .word = w ∧ kindAt s.map addr = .main ∧ permitted s.map addr 4 .execute = true

/-- `ProgramLoaded(base, words)`. -/
def State.programLoaded (s : State) (base : Word) : List Word → Prop
  | [] => True
  | w :: ws => s.wordLoaded base w ∧ s.programLoaded (base + 4) ws

/-- `CleanEntry`: `dirty` is empty and no trap is recorded. -/
def State.cleanEntry (s : State) : Prop := s.dirty = [] ∧ s.trap = none

/-! ### The end of a run (R206) -/

/-- The causes by which a program hands control to the environment on purpose. -/
def isHandover : Cause → Bool
  | .environmentCall => true
  | .breakpoint => true
  | _ => false

/-- The run is completed: its trap is an ECALL or an EBREAK. -/
def State.completed (s : State) : Bool := s.trap.any fun t => isHandover t.cause

/-- The run is faulted: its trap has one of the other seven causes. -/
def State.faulted (s : State) : Bool := s.trap.any fun t => !isHandover t.cause

/-- A step that leaves the run alive or ends it on purpose: no fault cause, no refusal. -/
def safeStep (s : State) : Prop := ∃ t, step s = .next t ∧ t.faulted = false

/-! ### The invariant -/

/-- `pc` is a multiple of 4 (R15). -/
def pcAligned (s : State) : Prop := s.pc.extractLsb' 0 2 = 0#2

/-- Every listed byte lies in main memory: `mem` holds a byte for main addresses only (R27). -/
def memInMain (s : State) : Prop := ∀ c ∈ s.mem, attrKind (mapAttr s.map c.1) = .main

/-- `dirty` is a set of main addresses, in rising order (R24, R34). -/
def dirtyInMain (s : State) : Prop :=
  s.dirty.Pairwise (· < ·) ∧ ∀ a ∈ s.dirty, a < 2 ^ 32 ∧ attrKind (mapAttr s.map a) = .main

/-- A recorded trap names the address the state still stands at (R186). -/
def trapAtPc (s : State) : Prop := ∀ t, s.trap = some t → t.pc = s.pc

/-- What holds of every state of a run that was launched at an aligned entry. -/
structure State.Inv (s : State) : Prop where
  aligned : pcAligned s
  canonical : s.mem.wf
  inMain : memInMain s
  dirtyMain : dirtyInMain s
  trapPc : trapAtPc s

/-! ### What a statement says of a next state -/

/-- Everything but the registers, the pc and the draws is as before: every byte of memory, `dirty`, the trap record,
the map and the device accesses. -/
structure SameOutside (s t : State) : Prop where
  bytes : ∀ a, t.byteAt a = s.byteAt a
  dirty : t.dirty = s.dirty
  trap : t.trap = s.trap
  map : t.map = s.map
  io : t.io = s.io

/-- `t` is `s` after an instruction whose only effect is to write `v` to `rd` (nothing for `x0`) and to go on at
`next`. -/
structure WritesReg (s t : State) (rd : RegIdx) (v next : Word) : Prop where
  regs : ∀ r, t.reg r = if r = 0 then 0 else if r = rd then v else s.reg r
  pc : t.pc = next
  draws : t.draws = s.draws
  rest : SameOutside s t

/-- `t` is `s` after an instruction that writes no register and no memory and goes on at `next`. -/
structure OnlyPc (s t : State) (next : Word) : Prop where
  regs : ∀ r, t.reg r = s.reg r
  pc : t.pc = next
  draws : t.draws = s.draws
  rest : SameOutside s t

/-- `t` is `s` with the trap `Trapped(cause, value, s.pc, s)` recorded and nothing else changed (R185, R186). -/
structure Traps (s t : State) (cause : Cause) (value : Word) : Prop where
  record : t.trap = some ⟨cause, value, s.pc⟩
  regs : ∀ r, t.reg r = s.reg r
  pc : t.pc = s.pc
  bytes : ∀ a, t.byteAt a = s.byteAt a
  dirty : t.dirty = s.dirty
  map : t.map = s.map
  draws : t.draws = s.draws
  io : t.io = s.io

/-- The next step fetches the word `w` (R7, R35): no trap is recorded, `pc` is aligned, its four bytes are executable,
none of them is `dirty`, and they hold `w`. -/
structure Fetches (s : State) (w : Word) : Prop where
  running : s.trap = none
  aligned : pcAligned s
  executable : permitted s.map s.pc 4 .execute = true
  clean : isStale s.dirty s.pc = false
  word : s.mainValue s.pc .word = w

/-- `t` is `s` after a load from a device region that wrote `v` to `rd`: one answer drawn, one access made. -/
structure LoadsIo (s t : State) (rd : RegIdx) (v : Word) (event : IoEvent) : Prop where
  regs : ∀ r, t.reg r = if r = 0 then 0 else if r = rd then v else s.reg r
  pc : t.pc = s.pc + 4
  bytes : ∀ a, t.byteAt a = s.byteAt a
  dirty : t.dirty = s.dirty
  trap : t.trap = s.trap
  map : t.map = s.map
  draws : t.draws = s.draws + 1
  io : t.io = s.io ++ [event]

/-- `t` is `s` after a store to the `n` bytes of main memory from `addr` up: those bytes hold the low bytes of `v`,
lowest first, and are `dirty`; every other byte and all the rest is as before, and `pc` has advanced. -/
structure StoresMain (s t : State) (addr : Word) (n : Nat) (v : Word) : Prop where
  stored : ∀ k, k < n → t.byteAt (addr + BitVec.ofNat 32 k) = v.extractLsb' (8 * k) 8
  bytes : ∀ a, (∀ k, k < n → a ≠ addr + BitVec.ofNat 32 k) → t.byteAt a = s.byteAt a
  dirty : ∀ a, a ∈ t.dirty ↔ a ∈ s.dirty ∨ ∃ k, k < n ∧ a = (addr + BitVec.ofNat 32 k).toNat
  regs : ∀ r, t.reg r = s.reg r
  pc : t.pc = s.pc + 4
  trap : t.trap = s.trap
  map : t.map = s.map
  draws : t.draws = s.draws
  io : t.io = s.io

/-- `t` is `s` after a store to a device region: the access was handed over, `pc` has advanced, nothing else changed. -/
structure StoresIo (s t : State) (event : IoEvent) : Prop where
  bytes : ∀ a, t.byteAt a = s.byteAt a
  dirty : t.dirty = s.dirty
  regs : ∀ r, t.reg r = s.reg r
  pc : t.pc = s.pc + 4
  trap : t.trap = s.trap
  map : t.map = s.map
  draws : t.draws = s.draws
  io : t.io = s.io ++ [event]

/-! ### Which instruction may do what -/

/-- The stores. -/
def isStore : Instr → Bool
  | .sb _ _ _ | .sh _ _ _ | .sw _ _ _ => true
  | _ => false

/-- The loads. -/
def isLoad : Instr → Bool
  | .lb _ _ _ | .lh _ _ _ | .lw _ _ _ | .lbu _ _ _ | .lhu _ _ _ => true
  | _ => false

/-- FENCE.I. -/
def isFenceI : Instr → Bool
  | .fenceI _ _ _ => true
  | _ => false

/-- The control transfers with a target (R178). -/
def isTransfer : Instr → Bool
  | .jal _ _ | .jalr _ _ _ => true
  | .beq _ _ _ | .bne _ _ _ | .blt _ _ _ | .bge _ _ _ | .bltu _ _ _ | .bgeu _ _ _ => true
  | _ => false

/-- The register an instruction names as its destination, if its format has one that it writes (R51, R145, R155,
R160). -/
def destOf : Instr → Option RegIdx
  | .lui rd _ | .auipc rd _ | .jal rd _ | .jalr rd _ _ => some rd
  | .lb rd _ _ | .lh rd _ _ | .lw rd _ _ | .lbu rd _ _ | .lhu rd _ _ => some rd
  | .addi rd _ _ | .slti rd _ _ | .sltiu rd _ _ | .xori rd _ _ | .ori rd _ _ | .andi rd _ _ => some rd
  | .slli rd _ _ | .srli rd _ _ | .srai rd _ _ => some rd
  | .add rd _ _ | .sub rd _ _ | .sll rd _ _ | .slt rd _ _ | .sltu rd _ _ => some rd
  | .xor rd _ _ | .srl rd _ _ | .sra rd _ _ | .or rd _ _ | .and rd _ _ => some rd
  | .csrrw rd _ _ | .csrrs rd _ _ | .csrrc rd _ _ | .csrrwi rd _ _ | .csrrsi rd _ _ | .csrrci rd _ _ => some rd
  | .sb _ _ _ | .sh _ _ _ | .sw _ _ _ => none
  | .beq _ _ _ | .bne _ _ _ | .blt _ _ _ | .bge _ _ _ | .bltu _ _ _ | .bgeu _ _ _ => none
  | .fence _ _ _ _ _ | .fenceI _ _ _ | .ecall | .ebreak => none

/-- The causes an instruction's own rule can raise: the table of R182. -/
def ownCauses : Instr → List Cause
  | .add _ _ _ | .sub _ _ _ | .sll _ _ _ | .slt _ _ _ | .sltu _ _ _ => []
  | .xor _ _ _ | .srl _ _ _ | .sra _ _ _ | .or _ _ _ | .and _ _ _ => []
  | .addi _ _ _ | .slti _ _ _ | .sltiu _ _ _ | .xori _ _ _ | .ori _ _ _ | .andi _ _ _ => []
  | .slli _ _ _ | .srli _ _ _ | .srai _ _ _ => []
  | .lui _ _ | .auipc _ _ => []
  | .fence _ _ _ _ _ | .fenceI _ _ _ => []
  | .lb _ _ _ | .lbu _ _ _ => [.loadAccessFault]
  | .lh _ _ _ | .lhu _ _ _ | .lw _ _ _ => [.loadAddressMisaligned, .loadAccessFault]
  | .sb _ _ _ => [.storeAccessFault]
  | .sh _ _ _ | .sw _ _ _ => [.storeAddressMisaligned, .storeAccessFault]
  | .beq _ _ _ | .bne _ _ _ | .blt _ _ _ | .bge _ _ _ | .bltu _ _ _ | .bgeu _ _ _ => [.instructionAddressMisaligned]
  | .jal _ _ | .jalr _ _ _ => [.instructionAddressMisaligned]
  | .csrrw _ _ _ | .csrrwi _ _ _ => [.illegalInstruction]
  | .csrrs _ csr rs1 | .csrrc _ csr rs1 => if rs1 = 0 ∧ isCounter csr = true then [] else [.illegalInstruction]
  | .csrrsi _ csr uimm | .csrrci _ csr uimm => if uimm = 0 ∧ isCounter csr = true then [] else [.illegalInstruction]
  | .ecall => [.environmentCall]
  | .ebreak => [.breakpoint]

/-- The condition of each branch, on the mathematical values of the two registers (47_b_format_branches.md section 2). -/
def branchConditions (rs1 rs2 : RegIdx) (offset : BitVec 13) (s : State) : List (Instr × Prop) :=
  [(.beq rs1 rs2 offset, s.reg rs1 = s.reg rs2), (.bne rs1 rs2 offset, s.reg rs1 ≠ s.reg rs2),
    (.blt rs1 rs2 offset, (s.reg rs1).toInt < (s.reg rs2).toInt),
    (.bge rs1 rs2 offset, (s.reg rs2).toInt ≤ (s.reg rs1).toInt),
    (.bltu rs1 rs2 offset, (s.reg rs1).toNat < (s.reg rs2).toNat),
    (.bgeu rs1 rs2 offset, (s.reg rs2).toNat ≤ (s.reg rs1).toNat)]

/-- The addresses of the six counter halves (10_state.md section 4). -/
def counterAddresses : List CsrAddr :=
  [0xC00#12, 0xC01#12, 0xC02#12, 0xC80#12, 0xC81#12, 0xC82#12]

end Sys2Proof.Machine
end

