-- ==== Sys2Proof/Certificates/Slice0/Obligations.lean ====
section
/-! DEFINITION. The statements for the provers. Each docstring names the rule of spec/ it formalises; what a statement
says of a next state stands in Sys2Proof/Safety.lean (WritesReg, OnlyPc, Traps, StoresMain, LoadsIo, StoresIo). -/

open Sys2Proof Sys2Proof.Machine

/-! ### Encoding -/

/-- The six worked words of 30_encoding.md section 7, one per format, both ways. -/
def Obligations.WorkedWordsDecodeAndEncode : Prop :=
  ∀ p ∈ [((0x002081B3#32 : Word), Instr.add 3 1 2), (0xFFF30293#32, .addi 5 6 0xFFF#12), (0x00712423#32, .sw 7 2 8#12),
      (0x00208863#32, .beq 1 2 16#13), (0x123452B7#32, .lui 5 0x12345#20), (0xFFDFF0EF#32, .jal 1 0x1FFFFC#21)],
    decode p.1 = .ok p.2 ∧ encode p.2 = p.1

/-- Decoding the word of a well-formed instruction gives it back, every operand at every value (30_encoding.md). -/
def Obligations.DecodeGivesBackWhatWasEncoded : Prop :=
  ∀ i : Instr, i.wellFormed = true → decode (encode i) = .ok i

/-- A word that decodes is the word of the instruction it decodes to, and that instruction is well-formed: no bit is
dropped (30_encoding.md sections 2 to 5). -/
def Obligations.EncodeGivesBackWhatWasDecoded : Prop :=
  ∀ (w : Word) (i : Instr), decode w = .ok i → encode i = w ∧ i.wellFormed = true

/-- The decoder finds exactly the row of the table whose mask and match fit the word (30_encoding.md section 4). -/
def Obligations.DecodeFollowsTheMaskMatchTable : Prop :=
  ∀ w : Word,
    (∀ i, decode w = .ok i → i.row ∈ opcodeRows ∧ i.row.matchesWord w = true) ∧
    (∀ r ∈ opcodeRows, r.matchesWord w = true → ∃ i, decode w = .ok i ∧ i.row = r)

/-- The table has 47 rows and no word matches two of them (30_encoding.md section 4). -/
def Obligations.TableRowsArePairwiseDisjoint : Prop :=
  opcodeRows.length = 47 ∧
  ∀ (w : Word), ∀ r ∈ opcodeRows, ∀ q ∈ opcodeRows, r.matchesWord w = true → q.matchesWord w = true → r = q

/-! ### The step -/

/-- Where the bytes at `pc` can be fetched and decode to an instruction, the step is that instruction, which moves `pc`
itself (00_scope.md section 6, `step()`). -/
def Obligations.StepRunsTheDecodedInstruction : Prop :=
  ∀ (s : State) (w : Word) (i : Instr), Fetches s w → decode w = .ok i → step s = exec i s

/-- A fetched word that matches no row raises IllegalInstruction with the word as its value; no state changes
(30_encoding.md section 5; the spec's own decision D14). -/
def Obligations.UnmatchedWordRaisesIllegalInstruction : Prop :=
  ∀ (s : State) (w : Word), Fetches s w → (∀ r ∈ opcodeRows, r.matchesWord w = false) →
    ∃ t, step s = .next t ∧ Traps s t .illegalInstruction w

/-- The words of URET, SRET, MRET, WFI and SFENCE.VMA raise IllegalInstruction (30_encoding.md section 5; the spec's own
decision D14). -/
def Obligations.PrivilegedWordsRaiseIllegalInstruction : Prop :=
  ∀ (s : State) (w : Word), Fetches s w →
    (w = 0x00200073#32 ∨ w = 0x10200073#32 ∨ w = 0x30200073#32 ∨ w = 0x10500073#32 ∨
      ∃ rs2 rs1 rd, w = packR 0b0001001#7 rs2 rs1 0b000#3 rd 0b1110011#7) →
    ∃ t, step s = .next t ∧ Traps s t .illegalInstruction w

/-- The checks of a step before decode, in the order of the priority list of 60_exceptions.md section 2: `pc`
alignment, then execute permission, then the `dirty` test (the spec's own decisions D15 and D19). -/
def Obligations.FetchChecksComeInOrder : Prop :=
  ∀ s : State, s.trap = none →
    (¬ pcAligned s → ∃ t, step s = .next t ∧ Traps s t .instructionAddressMisaligned s.pc) ∧
    (pcAligned s → permitted s.map s.pc 4 .execute = false →
      ∃ t, step s = .next t ∧ Traps s t .instructionAccessFault s.pc) ∧
    (pcAligned s → permitted s.map s.pc 4 .execute = true →
      (∃ k, k < 4 ∧ (s.pc + BitVec.ofNat 32 k).toNat ∈ s.dirty) → step s = .refused (.staleFetch s.pc))

/-- A step of a state without a trap yields a next state, or the refusal StaleFetch; it never faults (10_state.md
section 9). -/
def Obligations.StepYieldsNextOrStaleFetch : Prop :=
  ∀ s : State, s.trap = none → (∃ t, step s = .next t) ∨ step s = .refused (.staleFetch s.pc)

/-- Every instruction answers a next state in every state: no meaning faults or refuses. -/
def Obligations.EveryInstructionAnswersANextState : Prop :=
  ∀ (i : Instr) (s : State), ∃ t, exec i s = .next t

/-- The model's choice, log entry 4 (60_exceptions.md section 3 makes a trap terminal and allows a sticky field): a
state that holds a trap has no further step. -/
def Obligations.RecordedTrapEndsTheRun : Prop :=
  ∀ (s : State) (tr : Trap), s.trap = some tr → step s = .fault (.trapped tr)

/-- The model's own placement function (log entry 8): the very next step runs the instruction placed, in every state
whose memory is canonical. -/
def Obligations.PlacedInstructionRunsNext : Prop :=
  ∀ (s : State) (i : Instr), s.mem.wf → i.wellFormed = true →
    step (s.withFetchWord 32 (encode i).toNat) = exec i (s.withFetchWord 32 (encode i).toNat)

/-! ### Traps -/

/-- Traps are precise (60_exceptions.md section 3; the spec's own decisions D6 and D16): a step that ends in a trap
has made none of its writes: the next state is the state before the step with the record, which names that state's pc.
-/
def Obligations.TrapsArePrecise : Prop :=
  ∀ (s t : State) (tr : Trap), step s = .next t → t.trap = some tr →
    s.trap = none ∧ tr.pc = s.pc ∧ t = { s with trap := some tr }

/-- The table of 60_exceptions.md section 1: an instruction raises only the causes listed for it. -/
def Obligations.InstructionsRaiseOnlyTheirOwnCauses : Prop :=
  ∀ (i : Instr) (s t : State) (tr : Trap), s.trap = none → exec i s = .next t → t.trap = some tr →
    tr.cause ∈ ownCauses i

/-- The value recorded by IllegalInstruction is the 32-bit word at `pc`, whether the word or a CSR instruction's operand
is at fault (60_exceptions.md section 1; the spec's own decisions D6 and D11). -/
def Obligations.IllegalInstructionRecordsTheFetchedWord : Prop :=
  ∀ (s t : State) (tr : Trap), step s = .next t → t.trap = some tr → tr.cause = .illegalInstruction →
    tr.value = s.mainValue s.pc .word

/-- The completed shape of 60_exceptions.md section 9 (the spec's own decision D27): only the words of ECALL and EBREAK hand
a run to the environment on purpose. That each of them does is StepRunsTheDecodedInstruction with
EcallAndEbreakTrapAndDoNothingElse. -/
def Obligations.OnlyEcallAndEbreakCompleteARun : Prop :=
  ∀ s t : State, step s = .next t → t.completed = true →
    (s.mainValue s.pc .word = 0x00000073#32 ∧ t.trap = some ⟨.environmentCall, 0, s.pc⟩) ∨
    (s.mainValue s.pc .word = 0x00100073#32 ∧ t.trap = some ⟨.breakpoint, 0, s.pc⟩)

/-! ### Whole-machine rules -/

/-- Every step keeps the invariant: `pc` aligned (10_state.md section 2), memory canonical (the model's form, log 15)
and in main memory, `dirty` a set of main addresses, a trap recorded at `pc`. -/
def Obligations.EveryStepKeepsTheInvariant : Prop :=
  ∀ s t : State, s.Inv → step s = .next t → t.Inv

/-- The invariant holds right after reset, with the reset values this model names (log 1, 2, 3, 5). -/
def Obligations.ResetMeetsTheInvariant : Prop := State.reset.Inv

/-- The invariant holds at every launch with an aligned entry and a canonical memory in main addresses
(70_reset_and_hazards.md section 1). -/
def Obligations.LaunchMeetsTheInvariant : Prop :=
  ∀ l : Launch, l.alignedEntry → l.mem.wf → memInMain (State.launch l) → (State.launch l).Inv

/-- `MemMap` is constant during a run (20_memory.md section 5). -/
def Obligations.NoStepChangesTheMap : Prop := ∀ s t : State, step s = .next t → t.map = s.map

/-- Only a store changes a byte of memory (20_memory.md sections 2 and 8). -/
def Obligations.OnlyStoresChangeMemory : Prop :=
  ∀ (i : Instr) (s t : State), exec i s = .next t → isStore i = false → ∀ a, t.byteAt a = s.byteAt a

/-- Only a store adds to `dirty` and only FENCE.I takes from it (10_state.md section 7). -/
def Obligations.DirtyGrowsByStoresAndEmptiesByFenceI : Prop :=
  ∀ (i : Instr) (s t : State), exec i s = .next t →
    (isStore i = false → isFenceI i = false → t.dirty = s.dirty) ∧
    (isStore i = true → ∀ a ∈ s.dirty, a ∈ t.dirty) ∧ (isFenceI i = true → t.dirty = [])

/-- No instruction writes a register it does not name as its destination (10_state.md section 1). -/
def Obligations.OnlyTheNamedDestinationChanges : Prop :=
  ∀ (i : Instr) (s t : State) (r : RegIdx), exec i s = .next t → destOf i ≠ some r → t.reg r = s.reg r

/-- An instruction that is no control transfer and raises nothing ends with `pc <- pc + 4`, modulo 2^32 (10_state.md
section 2). -/
def Obligations.PcAdvancesByFourOutsideTransfers : Prop :=
  ∀ (i : Instr) (s t : State), exec i s = .next t → t.trap = none → isTransfer i = false → t.pc = s.pc + 4

/-- Device accesses reach the device in program order, each instruction at most one, and only loads and stores make any
(20_memory.md sections 6 and 8; the list of accesses is the model's own field, log 7). -/
def Obligations.DeviceAccessesAreMadeOnceInOrder : Prop :=
  ∀ (i : Instr) (s t : State), exec i s = .next t →
    t.io = s.io ∨ ((isLoad i = true ∨ isStore i = true) ∧ ∃ e, t.io = s.io ++ [e])

/-! ### Registers and memory -/

/-- `x0` reads as zero and discards writes; any other register reads as last written (10_state.md section 1). -/
def Obligations.RegisterReadsWhatWasWritten : Prop :=
  ∀ (s : State) (rd r : RegIdx) (v : Word),
    (s.setReg rd v).reg r = if r = 0 then 0 else if r = rd then v else s.reg r

/-- A byte reads as last written and a write leaves every other byte alone (20_memory.md section 5). -/
def Obligations.ByteReadsWhatWasWritten : Prop :=
  ∀ (m : Memory) (a b : Nat) (v : Byte), m.wf → (m.write a v).read b = if b = a then v else m.read b

/-- A write keeps the canonical form (the model's own, log 15). -/
def Obligations.MemoryWriteKeepsTheCanonicalForm : Prop :=
  ∀ (m : Memory) (a : Nat) (v : Byte), m.wf → a < 2 ^ 32 → (m.write a v).wf

/-- Canonical memories that read the same at every address are equal data (the model's own form, log 15). -/
def Obligations.EqualBytesMeanEqualMemories : Prop :=
  ∀ m n : Memory, m.wf → n.wf → (∀ a, m.read a = n.read a) → m = n

/-- Little-endian mixed-width access (20_memory.md section 1; the spec's own decision D1): after SW of `v` to an
address, LW there gives `v`, LHU its low half, LBU at offset 3 more its highest byte. -/
def Obligations.WordStoreIsReadBackLittleEndian : Prop :=
  ∀ (s t : State) (rs2 rs1 rd : RegIdx) (imm imm3 : BitVec 12), s.mem.wf → rd ≠ 0 → t.trap = none →
    kindAt s.map (effAddr rs1 imm s) = .main → permitted s.map (effAddr rs1 imm s) 4 .read = true →
    effAddr rs1 imm3 s = effAddr rs1 imm s + 3 → exec (.sw rs2 rs1 imm) s = .next t →
    (∃ u, exec (.lw rd rs1 imm) t = .next u ∧ u.reg rd = s.reg rs2) ∧
    (∃ u, exec (.lhu rd rs1 imm) t = .next u ∧ u.reg rd = ((s.reg rs2).extractLsb' 0 16).setWidth 32) ∧
    (∃ u, exec (.lbu rd rs1 imm3) t = .next u ∧ u.reg rd = ((s.reg rs2).extractLsb' 24 8).setWidth 32)

/-! ### Register-register instructions -/

/-- R81, R82, R86, R89, R90: result, `pc + 4`, nothing else, no exception; and the encoding's mask and match. -/
def Obligations.AddSubAndLogicResults : Prop :=
  ∀ (rd rs1 rs2 : RegIdx) (s : State),
    (∃ t, exec (.add rd rs1 rs2) s = .next t ∧ WritesReg s t rd (s.reg rs1 + s.reg rs2) (s.pc + 4)) ∧
    (∃ t, exec (.sub rd rs1 rs2) s = .next t ∧ WritesReg s t rd (s.reg rs1 - s.reg rs2) (s.pc + 4)) ∧
    (∃ t, exec (.xor rd rs1 rs2) s = .next t ∧ WritesReg s t rd (s.reg rs1 ^^^ s.reg rs2) (s.pc + 4)) ∧
    (∃ t, exec (.or rd rs1 rs2) s = .next t ∧ WritesReg s t rd (s.reg rs1 ||| s.reg rs2) (s.pc + 4)) ∧
    (∃ t, exec (.and rd rs1 rs2) s = .next t ∧ WritesReg s t rd (s.reg rs1 &&& s.reg rs2) (s.pc + 4)) ∧
    encode (.add rd rs1 rs2) &&& 0xFE00707F#32 = 0x00000033#32 ∧
    encode (.sub rd rs1 rs2) &&& 0xFE00707F#32 = 0x40000033#32 ∧
    encode (.xor rd rs1 rs2) &&& 0xFE00707F#32 = 0x00004033#32 ∧
    encode (.or rd rs1 rs2) &&& 0xFE00707F#32 = 0x00006033#32 ∧
    encode (.and rd rs1 rs2) &&& 0xFE00707F#32 = 0x00007033#32

/-- R84, R85: 1 when less on the mathematical values, else 0; `pc + 4`, nothing else, no exception; and the encodings. -/
def Obligations.SetLessThanResults : Prop :=
  ∀ (rd rs1 rs2 : RegIdx) (s : State),
    (∃ t, exec (.slt rd rs1 rs2) s = .next t ∧
      WritesReg s t rd (if (s.reg rs1).toInt < (s.reg rs2).toInt then 1 else 0) (s.pc + 4)) ∧
    (∃ t, exec (.sltu rd rs1 rs2) s = .next t ∧
      WritesReg s t rd (if (s.reg rs1).toNat < (s.reg rs2).toNat then 1 else 0) (s.pc + 4)) ∧
    encode (.slt rd rs1 rs2) &&& 0xFE00707F#32 = 0x00002033#32 ∧
    encode (.sltu rd rs1 rs2) &&& 0xFE00707F#32 = 0x00003033#32

/-- R83, R87, R88: shifts by the low 5 bits of `x[rs2]`, as arithmetic: multiplication modulo 2^32, division of the
unsigned value, division of the signed value rounded toward minus infinity; `pc + 4`, nothing else, no exception; and the
encodings. -/
def Obligations.RegisterShiftResults : Prop :=
  ∀ (rd rs1 rs2 : RegIdx) (s : State),
    (∃ t v, exec (.sll rd rs1 rs2) s = .next t ∧ WritesReg s t rd v (s.pc + 4) ∧
      v.toNat = (s.reg rs1).toNat * 2 ^ ((s.reg rs2).toNat % 32) % 2 ^ 32) ∧
    (∃ t v, exec (.srl rd rs1 rs2) s = .next t ∧ WritesReg s t rd v (s.pc + 4) ∧
      v.toNat = (s.reg rs1).toNat / 2 ^ ((s.reg rs2).toNat % 32)) ∧
    (∃ t v, exec (.sra rd rs1 rs2) s = .next t ∧ WritesReg s t rd v (s.pc + 4) ∧
      v.toInt = (s.reg rs1).toInt / 2 ^ ((s.reg rs2).toNat % 32)) ∧
    encode (.sll rd rs1 rs2) &&& 0xFE00707F#32 = 0x00001033#32 ∧
    encode (.srl rd rs1 rs2) &&& 0xFE00707F#32 = 0x00005033#32 ∧
    encode (.sra rd rs1 rs2) &&& 0xFE00707F#32 = 0x40005033#32

/-! ### Register-immediate instructions -/

/-- R111, R114, R115, R116: the immediate sign-extended; result, `pc + 4`, nothing else, no exception; and the
encodings. -/
def Obligations.AddImmediateAndLogicImmediateResults : Prop :=
  ∀ (rd rs1 : RegIdx) (imm : BitVec 12) (s : State),
    (∃ t, exec (.addi rd rs1 imm) s = .next t ∧ WritesReg s t rd (s.reg rs1 + imm.signExtend 32) (s.pc + 4)) ∧
    (∃ t, exec (.xori rd rs1 imm) s = .next t ∧ WritesReg s t rd (s.reg rs1 ^^^ imm.signExtend 32) (s.pc + 4)) ∧
    (∃ t, exec (.ori rd rs1 imm) s = .next t ∧ WritesReg s t rd (s.reg rs1 ||| imm.signExtend 32) (s.pc + 4)) ∧
    (∃ t, exec (.andi rd rs1 imm) s = .next t ∧ WritesReg s t rd (s.reg rs1 &&& imm.signExtend 32) (s.pc + 4)) ∧
    encode (.addi rd rs1 imm) &&& 0x0000707F#32 = 0x00000013#32 ∧
    encode (.xori rd rs1 imm) &&& 0x0000707F#32 = 0x00004013#32 ∧
    encode (.ori rd rs1 imm) &&& 0x0000707F#32 = 0x00006013#32 ∧
    encode (.andi rd rs1 imm) &&& 0x0000707F#32 = 0x00007013#32

/-- R112, R113: the sign-extended immediate compared signed, or as the unsigned number of its 32 bits; `pc + 4`, nothing
else, no exception; and the encodings. -/
def Obligations.SetLessThanImmediateResults : Prop :=
  ∀ (rd rs1 : RegIdx) (imm : BitVec 12) (s : State),
    (∃ t, exec (.slti rd rs1 imm) s = .next t ∧
      WritesReg s t rd (if (s.reg rs1).toInt < imm.toInt then 1 else 0) (s.pc + 4)) ∧
    (∃ t, exec (.sltiu rd rs1 imm) s = .next t ∧
      WritesReg s t rd (if (s.reg rs1).toNat < (imm.signExtend 32).toNat then 1 else 0) (s.pc + 4)) ∧
    encode (.slti rd rs1 imm) &&& 0x0000707F#32 = 0x00002013#32 ∧
    encode (.sltiu rd rs1 imm) &&& 0x0000707F#32 = 0x00003013#32

/-- R117, R118, R119: shifts by the 5-bit `shamt`, as arithmetic; `pc + 4`, nothing else, no exception; the encodings;
and a word like SLLI's with another `inst[31:25]` is no instruction. -/
def Obligations.ImmediateShiftResults : Prop :=
  ∀ (rd rs1 : RegIdx) (shamt : BitVec 5) (s : State),
    (∃ t v, exec (.slli rd rs1 shamt) s = .next t ∧ WritesReg s t rd v (s.pc + 4) ∧
      v.toNat = (s.reg rs1).toNat * 2 ^ shamt.toNat % 2 ^ 32) ∧
    (∃ t v, exec (.srli rd rs1 shamt) s = .next t ∧ WritesReg s t rd v (s.pc + 4) ∧
      v.toNat = (s.reg rs1).toNat / 2 ^ shamt.toNat) ∧
    (∃ t v, exec (.srai rd rs1 shamt) s = .next t ∧ WritesReg s t rd v (s.pc + 4) ∧
      v.toInt = (s.reg rs1).toInt / 2 ^ shamt.toNat) ∧
    encode (.slli rd rs1 shamt) &&& 0xFE00707F#32 = 0x00001013#32 ∧
    encode (.srli rd rs1 shamt) &&& 0xFE00707F#32 = 0x00005013#32 ∧
    encode (.srai rd rs1 shamt) &&& 0xFE00707F#32 = 0x40005013#32 ∧
    ∀ w : Word, w &&& 0x0000707F#32 = 0x00001013#32 → w.extractLsb' 25 7 ≠ 0 → ∃ c, decode w = .error c

/-- R171, R172: LUI and AUIPC; `pc + 4`, nothing else, no exception; and the encodings. -/
def Obligations.UpperImmediateResults : Prop :=
  ∀ (rd : RegIdx) (imm : BitVec 20) (s : State),
    (∃ t v, exec (.lui rd imm) s = .next t ∧ WritesReg s t rd v (s.pc + 4) ∧ v.toNat = imm.toNat * 4096) ∧
    (∃ t v, exec (.auipc rd imm) s = .next t ∧ WritesReg s t rd v (s.pc + 4) ∧
      v.toNat = (s.pc.toNat + imm.toNat * 4096) % 2 ^ 32) ∧
    encode (.lui rd imm) &&& 0x0000007F#32 = 0x00000037#32 ∧
    encode (.auipc rd imm) &&& 0x0000007F#32 = 0x00000017#32

/-- The pairs of 30_encoding.md section 8 and 48_u_format.md section 2: LUI or AUIPC of the rounded high part, then
ADDI of the signed low part, leaves any constant, or any symbol's address from any pc, in `rd`; each advances `pc` by
4 and nothing else changes. -/
def Obligations.UpperImmediateThenAddiReachesEveryValue : Prop :=
  ∀ (rd : RegIdx) (v : Word) (s : State), rd ≠ 0 →
    (∃ t u, exec (.lui rd (v.extractLsb' 12 20 + (v.extractLsb' 11 1).setWidth 20)) s = .next t ∧
      exec (.addi rd rd (v.extractLsb' 0 12)) t = .next u ∧ WritesReg s u rd v (s.pc + 8)) ∧
    (∃ t u, exec (.auipc rd ((v - s.pc).extractLsb' 12 20 + ((v - s.pc).extractLsb' 11 1).setWidth 20)) s = .next t ∧
      exec (.addi rd rd ((v - s.pc).extractLsb' 0 12)) t = .next u ∧ WritesReg s u rd v (s.pc + 8))

/-! ### Loads -/

/-- LB and LBU (41_i_format_loads.md section 2; the exceptions are the spec's own decisions D2 and D4), never
misaligned: the byte of main memory, sign- or zero-extended, to `rd`; from a device the oracle's answer (a free
value), one access made, whatever `rd` is; `pc + 4`, nothing else; LoadAccessFault where reading is not permitted,
nothing changed; and the encodings. -/
def Obligations.ByteLoadResults : Prop :=
  ∀ (rd rs1 : RegIdx) (imm : BitVec 12) (s : State) (addr : Word), addr = effAddr rs1 imm s →
    addr = s.reg rs1 + imm.signExtend 32 ∧
    (kindAt s.map addr = .main → permitted s.map addr 1 .read = true →
      (∃ t, exec (.lb rd rs1 imm) s = .next t ∧ WritesReg s t rd ((s.byteAt addr).signExtend 32) (s.pc + 4)) ∧
      (∃ t, exec (.lbu rd rs1 imm) s = .next t ∧ WritesReg s t rd ((s.byteAt addr).setWidth 32) (s.pc + 4))) ∧
    (kindAt s.map addr = .io → permitted s.map addr 1 .read = true → ∀ b, b = Config.ioRead s.draws addr 1 0 →
      (∃ t, exec (.lb rd rs1 imm) s = .next t ∧ LoadsIo s t rd (b.signExtend 32) (.read addr 1 (b.setWidth 32))) ∧
      (∃ t, exec (.lbu rd rs1 imm) s = .next t ∧ LoadsIo s t rd (b.setWidth 32) (.read addr 1 (b.setWidth 32)))) ∧
    (permitted s.map addr 1 .read = false → ∀ i ∈ [Instr.lb rd rs1 imm, .lbu rd rs1 imm],
      ∃ t, exec i s = .next t ∧ Traps s t .loadAccessFault addr) ∧
    encode (.lb rd rs1 imm) &&& 0x0000707F#32 = 0x00000003#32 ∧
    encode (.lbu rd rs1 imm) &&& 0x0000707F#32 = 0x00004003#32

/-- LH and LHU (41_i_format_loads.md section 2; decisions D1, D2, D4, D18), as the byte loads with two bytes, the one
at the lower address the less significant; at an odd address LoadAddressMisaligned, whatever the map says. -/
def Obligations.HalfwordLoadResults : Prop :=
  ∀ (rd rs1 : RegIdx) (imm : BitVec 12) (s : State) (addr : Word), addr = effAddr rs1 imm s →
    addr = s.reg rs1 + imm.signExtend 32 ∧
    (addr.toNat % 2 = 0 → kindAt s.map addr = .main → permitted s.map addr 2 .read = true →
      ∀ h : BitVec 16, h = s.byteAt (addr + 1) ++ s.byteAt addr →
        (∃ t, exec (.lh rd rs1 imm) s = .next t ∧ WritesReg s t rd (h.signExtend 32) (s.pc + 4)) ∧
        (∃ t, exec (.lhu rd rs1 imm) s = .next t ∧ WritesReg s t rd (h.setWidth 32) (s.pc + 4))) ∧
    (addr.toNat % 2 = 0 → kindAt s.map addr = .io → permitted s.map addr 2 .read = true →
      ∀ h : BitVec 16, h = Config.ioRead s.draws addr 2 1 ++ Config.ioRead s.draws addr 2 0 →
        (∃ t, exec (.lh rd rs1 imm) s = .next t ∧ LoadsIo s t rd (h.signExtend 32) (.read addr 2 (h.setWidth 32))) ∧
        (∃ t, exec (.lhu rd rs1 imm) s = .next t ∧ LoadsIo s t rd (h.setWidth 32) (.read addr 2 (h.setWidth 32)))) ∧
    (addr.toNat % 2 = 0 → permitted s.map addr 2 .read = false → ∀ i ∈ [Instr.lh rd rs1 imm, .lhu rd rs1 imm],
      ∃ t, exec i s = .next t ∧ Traps s t .loadAccessFault addr) ∧
    (addr.toNat % 2 ≠ 0 → ∀ i ∈ [Instr.lh rd rs1 imm, .lhu rd rs1 imm],
      ∃ t, exec i s = .next t ∧ Traps s t .loadAddressMisaligned addr) ∧
    encode (.lh rd rs1 imm) &&& 0x0000707F#32 = 0x00001003#32 ∧
    encode (.lhu rd rs1 imm) &&& 0x0000707F#32 = 0x00005003#32

/-- LW (41_i_format_loads.md section 2; decisions D1, D2, D4, D18), with four bytes, the one at the lowest address the
least significant. -/
def Obligations.WordLoadResults : Prop :=
  ∀ (rd rs1 : RegIdx) (imm : BitVec 12) (s : State) (addr : Word), addr = effAddr rs1 imm s →
    addr = s.reg rs1 + imm.signExtend 32 ∧
    (addr.toNat % 4 = 0 → kindAt s.map addr = .main → permitted s.map addr 4 .read = true →
      ∃ t, exec (.lw rd rs1 imm) s = .next t ∧
        WritesReg s t rd (s.byteAt (addr + 3) ++ s.byteAt (addr + 2) ++ s.byteAt (addr + 1) ++ s.byteAt addr)
          (s.pc + 4)) ∧
    (addr.toNat % 4 = 0 → kindAt s.map addr = .io → permitted s.map addr 4 .read = true →
      ∀ v : Word, v = Config.ioRead s.draws addr 4 3 ++ Config.ioRead s.draws addr 4 2 ++
          Config.ioRead s.draws addr 4 1 ++ Config.ioRead s.draws addr 4 0 →
        ∃ t, exec (.lw rd rs1 imm) s = .next t ∧ LoadsIo s t rd v (.read addr 4 v)) ∧
    (addr.toNat % 4 = 0 → permitted s.map addr 4 .read = false →
      ∃ t, exec (.lw rd rs1 imm) s = .next t ∧ Traps s t .loadAccessFault addr) ∧
    (addr.toNat % 4 ≠ 0 → ∃ t, exec (.lw rd rs1 imm) s = .next t ∧ Traps s t .loadAddressMisaligned addr) ∧
    encode (.lw rd rs1 imm) &&& 0x0000707F#32 = 0x00002003#32

/-! ### Stores -/

/-- SB (46_s_format_stores.md section 2; the exceptions are the spec's own decisions D2 and D4, `dirty` is D15), never
misaligned: the low byte of `x[rs2]` to main memory at the effective address, which becomes `dirty`,
every other byte as before; to a device, one access made; `pc + 4`, nothing else; StoreAccessFault where writing is not
permitted, nothing changed; and the encoding. -/
def Obligations.ByteStoreResults : Prop :=
  ∀ (rs2 rs1 : RegIdx) (imm : BitVec 12) (s : State) (addr : Word), addr = effAddr rs1 imm s →
    addr = s.reg rs1 + imm.signExtend 32 ∧
    (s.mem.wf → kindAt s.map addr = .main → permitted s.map addr 1 .write = true →
      ∃ t, exec (.sb rs2 rs1 imm) s = .next t ∧ StoresMain s t addr 1 (s.reg rs2)) ∧
    (kindAt s.map addr = .io → permitted s.map addr 1 .write = true →
      ∃ t, exec (.sb rs2 rs1 imm) s = .next t ∧
        StoresIo s t (.write addr 1 (((s.reg rs2).extractLsb' 0 8).setWidth 32))) ∧
    (permitted s.map addr 1 .write = false →
      ∃ t, exec (.sb rs2 rs1 imm) s = .next t ∧ Traps s t .storeAccessFault addr) ∧
    encode (.sb rs2 rs1 imm) &&& 0x0000707F#32 = 0x00000023#32

/-- SH (46_s_format_stores.md section 2; decisions D1, D2, D4, D15, D18), with two bytes, `x[rs2][7:0]` at the
effective address and `x[rs2][15:8]` one above; at an odd address StoreAddressMisaligned, whatever the map says. -/
def Obligations.HalfwordStoreResults : Prop :=
  ∀ (rs2 rs1 : RegIdx) (imm : BitVec 12) (s : State) (addr : Word), addr = effAddr rs1 imm s →
    addr = s.reg rs1 + imm.signExtend 32 ∧
    (addr.toNat % 2 = 0 → s.mem.wf → kindAt s.map addr = .main → permitted s.map addr 2 .write = true →
      ∃ t, exec (.sh rs2 rs1 imm) s = .next t ∧ StoresMain s t addr 2 (s.reg rs2)) ∧
    (addr.toNat % 2 = 0 → kindAt s.map addr = .io → permitted s.map addr 2 .write = true →
      ∃ t, exec (.sh rs2 rs1 imm) s = .next t ∧
        StoresIo s t (.write addr 2 (((s.reg rs2).extractLsb' 0 16).setWidth 32))) ∧
    (addr.toNat % 2 = 0 → permitted s.map addr 2 .write = false →
      ∃ t, exec (.sh rs2 rs1 imm) s = .next t ∧ Traps s t .storeAccessFault addr) ∧
    (addr.toNat % 2 ≠ 0 → ∃ t, exec (.sh rs2 rs1 imm) s = .next t ∧ Traps s t .storeAddressMisaligned addr) ∧
    encode (.sh rs2 rs1 imm) &&& 0x0000707F#32 = 0x00001023#32

/-- SW (46_s_format_stores.md section 2; decisions D1, D2, D4, D15, D18), with four bytes, lowest first; at an address
that is no multiple of 4 StoreAddressMisaligned. -/
def Obligations.WordStoreResults : Prop :=
  ∀ (rs2 rs1 : RegIdx) (imm : BitVec 12) (s : State) (addr : Word), addr = effAddr rs1 imm s →
    addr = s.reg rs1 + imm.signExtend 32 ∧
    (addr.toNat % 4 = 0 → s.mem.wf → kindAt s.map addr = .main → permitted s.map addr 4 .write = true →
      ∃ t, exec (.sw rs2 rs1 imm) s = .next t ∧ StoresMain s t addr 4 (s.reg rs2)) ∧
    (addr.toNat % 4 = 0 → kindAt s.map addr = .io → permitted s.map addr 4 .write = true →
      ∃ t, exec (.sw rs2 rs1 imm) s = .next t ∧ StoresIo s t (.write addr 4 (s.reg rs2))) ∧
    (addr.toNat % 4 = 0 → permitted s.map addr 4 .write = false →
      ∃ t, exec (.sw rs2 rs1 imm) s = .next t ∧ Traps s t .storeAccessFault addr) ∧
    (addr.toNat % 4 ≠ 0 → ∃ t, exec (.sw rs2 rs1 imm) s = .next t ∧ Traps s t .storeAddressMisaligned addr) ∧
    encode (.sw rs2 rs1 imm) &&& 0x0000707F#32 = 0x00002023#32

/-! ### Control transfer -/

/-- The six branches (47_b_format_branches.md section 2; the exception is the spec's own decision D3). Taken to a
target with bit 1 clear, `pc` is the target; taken to one with bit 1 set, InstructionAddressMisaligned with the
target, on the branch; not taken, `pc + 4` whatever the offset; nothing else changes; and the encodings. -/
def Obligations.BranchResults : Prop :=
  ∀ (rs1 rs2 : RegIdx) (offset : BitVec 13) (s : State),
    (∀ p ∈ branchConditions rs1 rs2 offset s,
      (p.2 → (s.pc + offset.signExtend 32).getLsbD 1 = false →
        ∃ t, exec p.1 s = .next t ∧ OnlyPc s t (s.pc + offset.signExtend 32)) ∧
      (p.2 → (s.pc + offset.signExtend 32).getLsbD 1 = true →
        ∃ t, exec p.1 s = .next t ∧ Traps s t .instructionAddressMisaligned (s.pc + offset.signExtend 32)) ∧
      (¬ p.2 → ∃ t, exec p.1 s = .next t ∧ OnlyPc s t (s.pc + 4))) ∧
    encode (.beq rs1 rs2 offset) &&& 0x0000707F#32 = 0x00000063#32 ∧
    encode (.bne rs1 rs2 offset) &&& 0x0000707F#32 = 0x00001063#32 ∧
    encode (.blt rs1 rs2 offset) &&& 0x0000707F#32 = 0x00004063#32 ∧
    encode (.bge rs1 rs2 offset) &&& 0x0000707F#32 = 0x00005063#32 ∧
    encode (.bltu rs1 rs2 offset) &&& 0x0000707F#32 = 0x00006063#32 ∧
    encode (.bgeu rs1 rs2 offset) &&& 0x0000707F#32 = 0x00007063#32

/-- JAL and JALR (49_j_format_jal.md and 43_i_format_jalr.md section 1; the exception is the spec's own decision D3).
To a target with bit 1 clear: the link `pc + 4` to `rd`, `pc` at the target, computed from the old register and for
JALR with bit 0 cleared; to one with bit 1 set: InstructionAddressMisaligned with the target, the link not written;
nothing else changes; and the encodings. -/
def Obligations.JumpResults : Prop :=
  ∀ (rd rs1 : RegIdx) (offset : BitVec 21) (imm : BitVec 12) (s : State),
    ((s.pc + offset.signExtend 32).getLsbD 1 = false →
      ∃ t, exec (.jal rd offset) s = .next t ∧ WritesReg s t rd (s.pc + 4) (s.pc + offset.signExtend 32)) ∧
    ((s.pc + offset.signExtend 32).getLsbD 1 = true →
      ∃ t, exec (.jal rd offset) s = .next t ∧
        Traps s t .instructionAddressMisaligned (s.pc + offset.signExtend 32)) ∧
    (∃ target : Word, target.toNat = (s.reg rs1 + imm.signExtend 32).toNat / 2 * 2 ∧
      (target.getLsbD 1 = false →
        ∃ t, exec (.jalr rd rs1 imm) s = .next t ∧ WritesReg s t rd (s.pc + 4) target) ∧
      (target.getLsbD 1 = true →
        ∃ t, exec (.jalr rd rs1 imm) s = .next t ∧ Traps s t .instructionAddressMisaligned target)) ∧
    encode (.jal rd offset) &&& 0x0000007F#32 = 0x0000006F#32 ∧
    encode (.jalr rd rs1 imm) &&& 0x0000707F#32 = 0x00000067#32

/-! ### CSR instructions -/

/-- The complete outcome table of the CSR instructions (44_i_format_csr.md section 1; the spec's own decisions D11 and
D22). The four read forms (CSRRS, CSRRC with `rs1 = x0`; CSRRSI, CSRRCI with `uimm = 0`) on one of the six counters
put one draw, a free value, in `rd` (with `rd = x0` the draw is consumed and discarded) and advance `pc`, nothing
else. Every other CSR instruction raises IllegalInstruction with its own word, no draw consumed: CSRRW and CSRRWI
always. -/
def Obligations.CsrOutcomeTable : Prop :=
  ∀ (rd src : RegIdx) (csr : CsrAddr) (s : State),
    (∀ i ∈ [Instr.csrrw rd csr src, .csrrwi rd csr src],
      ∃ t, exec i s = .next t ∧ Traps s t .illegalInstruction (encode i)) ∧
    (src ≠ 0 ∨ csr ∉ counterAddresses →
      ∀ i ∈ [Instr.csrrs rd csr src, .csrrc rd csr src, .csrrsi rd csr src, .csrrci rd csr src],
        ∃ t, exec i s = .next t ∧ Traps s t .illegalInstruction (encode i)) ∧
    (src = 0 → csr ∈ counterAddresses →
      ∀ i ∈ [Instr.csrrs rd csr src, .csrrc rd csr src, .csrrsi rd csr src, .csrrci rd csr src],
        ∃ t, exec i s = .next t ∧
          (∀ r, t.reg r = if r = 0 then 0 else if r = rd then Config.counterRead s.draws csr else s.reg r) ∧
          t.pc = s.pc + 4 ∧ t.draws = s.draws + 1 ∧ SameOutside s t)

/-! ### System and fences -/

/-- ECALL is the word 0x00000073 and raises EnvironmentCall with value 0, EBREAK is 0x00100073 and raises Breakpoint with
value 0; neither performs any other operation (45_i_format_system_fence.md section 1; the values are decision D23). -/
def Obligations.EcallAndEbreakTrapAndDoNothingElse : Prop :=
  ∀ s : State,
    (∃ t, exec .ecall s = .next t ∧ Traps s t .environmentCall 0) ∧
    (∃ t, exec .ebreak s = .next t ∧ Traps s t .breakpoint 0) ∧
    (∀ w, decode w = .ok .ecall ↔ w = 0x00000073#32) ∧ (∀ w, decode w = .ok .ebreak ↔ w = 0x00100073#32)

/-- FENCE, with every value of its fields, only advances `pc`; `dirty` in particular stays as it is
(45_i_format_system_fence.md section 2; the spec's own decisions D13 and D24). -/
def Obligations.FenceOnlyAdvancesPc : Prop :=
  ∀ (fm pred succ : BitVec 4) (rs1 rd : RegIdx) (s : State),
    (∃ t, exec (.fence fm pred succ rs1 rd) s = .next t ∧ OnlyPc s t (s.pc + 4)) ∧
    encode (.fence fm pred succ rs1 rd) &&& 0x0000707F#32 = 0x0000000F#32

/-- FENCE.I, with every value of its fields, empties `dirty` and advances `pc`, nothing else; the fetch after it is
never refused; a FENCE.I whose own bytes are `dirty` is itself refused; and the encoding (45_i_format_system_fence.md
section 2; the spec's own decisions D13 and D15). -/
def Obligations.FenceIResults : Prop :=
  ∀ (imm : BitVec 12) (rs1 rd : RegIdx) (s : State),
    (∃ t, exec (.fenceI imm rs1 rd) s = .next t ∧ t.dirty = [] ∧ OnlyPc { s with dirty := [] } t (s.pc + 4) ∧
      ∀ a, step t ≠ .refused (.staleFetch a)) ∧
    (s.trap = none → pcAligned s → permitted s.map s.pc 4 .execute = true →
      s.mainValue s.pc .word = encode (.fenceI imm rs1 rd) → isStale s.dirty s.pc = true →
      step s = .refused (.staleFetch s.pc)) ∧
    encode (.fenceI imm rs1 rd) &&& 0x0000707F#32 = 0x0000100F#32

/-- A store into the word that is fetched next, with no FENCE.I between, ends in the refusal StaleFetch (20_memory.md
section 9, 70_reset_and_hazards.md section 3; the spec's own decision D15). -/
def Obligations.StoreIntoNextWordIsRefused : Prop :=
  ∀ (rs2 rs1 : RegIdx) (imm : BitVec 12) (s t : State), pcAligned s → exec (.sw rs2 rs1 imm) s = .next t →
    t.trap = none → kindAt s.map (effAddr rs1 imm s) = .main → effAddr rs1 imm s = s.pc + 4 →
    permitted s.map (s.pc + 4) 4 .execute = true → step t = .refused (.staleFetch (s.pc + 4))

/-! ### Launch -/

/-- The launch state of 70_reset_and_hazards.md section 1: the registers, `pc`, memory and map the launch gives, `dirty`
empty, no trap recorded, `x0` zero; and reset is the launch with the values this model names (log entries 1, 2, 3, 5). -/
def Obligations.LaunchStateHoldsWhatTheLaunchGives : Prop :=
  (∀ (l : Launch) (r : RegIdx),
    (State.launch l).reg r = (if h : r = 0 then 0 else l.regs[r.toNat - 1]'(by have := r.isLt; omega)) ∧
    (State.launch l).pc = l.resetPc ∧ (∀ a : Word, (State.launch l).byteAt a = l.mem.read a.toNat) ∧
    (State.launch l).map = l.map ∧ (State.launch l).dirty = [] ∧ (State.launch l).trap = none) ∧
  State.reset = State.launch ⟨Config.resetMap, Config.resetPc, [], Vector.replicate 31 0⟩
end

