-- ==== Sys2Proof/Laws/State.lean ====
section
/-! SUPPORT. One lemma per field per update of the state, true by rfl, so that no proof unfolds a record update; and the
register laws. -/

namespace Sys2Proof.Machine

/-! ### `setPc` -/

@[simp] theorem State.setPc_regs (s : State) (p : Word) : (s.setPc p).regs = s.regs := rfl
@[simp] theorem State.setPc_pc (s : State) (p : Word) : (s.setPc p).pc = p := rfl
@[simp] theorem State.setPc_mem (s : State) (p : Word) : (s.setPc p).mem = s.mem := rfl
@[simp] theorem State.setPc_dirty (s : State) (p : Word) : (s.setPc p).dirty = s.dirty := rfl
@[simp] theorem State.setPc_trap (s : State) (p : Word) : (s.setPc p).trap = s.trap := rfl
@[simp] theorem State.setPc_map (s : State) (p : Word) : (s.setPc p).map = s.map := rfl
@[simp] theorem State.setPc_draws (s : State) (p : Word) : (s.setPc p).draws = s.draws := rfl
@[simp] theorem State.setPc_io (s : State) (p : Word) : (s.setPc p).io = s.io := rfl

@[simp] theorem State.reg_setPc (s : State) (p : Word) (r : RegIdx) : (s.setPc p).reg r = s.reg r := rfl
@[simp] theorem State.byteAt_setPc (s : State) (p : Word) (x : Word) : (s.setPc p).byteAt x = s.byteAt x := rfl

/-! ### `advance` -/

@[simp] theorem State.advance_regs (s : State) : s.advance.regs = s.regs := rfl
@[simp] theorem State.advance_pc (s : State) : s.advance.pc = s.pc + 4 := rfl
@[simp] theorem State.advance_mem (s : State) : s.advance.mem = s.mem := rfl
@[simp] theorem State.advance_dirty (s : State) : s.advance.dirty = s.dirty := rfl
@[simp] theorem State.advance_trap (s : State) : s.advance.trap = s.trap := rfl
@[simp] theorem State.advance_map (s : State) : s.advance.map = s.map := rfl
@[simp] theorem State.advance_draws (s : State) : s.advance.draws = s.draws := rfl
@[simp] theorem State.advance_io (s : State) : s.advance.io = s.io := rfl

@[simp] theorem State.reg_advance (s : State) (r : RegIdx) : s.advance.reg r = s.reg r := rfl
@[simp] theorem State.byteAt_advance (s : State) (x : Word) : s.advance.byteAt x = s.byteAt x := rfl

/-! ### `takeTrap` -/

@[simp] theorem State.takeTrap_regs (s : State) (e : Exn) : (s.takeTrap e).regs = s.regs := rfl
@[simp] theorem State.takeTrap_pc (s : State) (e : Exn) : (s.takeTrap e).pc = s.pc := rfl
@[simp] theorem State.takeTrap_mem (s : State) (e : Exn) : (s.takeTrap e).mem = s.mem := rfl
@[simp] theorem State.takeTrap_dirty (s : State) (e : Exn) : (s.takeTrap e).dirty = s.dirty := rfl
@[simp] theorem State.takeTrap_trap (s : State) (e : Exn) : (s.takeTrap e).trap = some ⟨e.cause, e.value, s.pc⟩ := rfl
@[simp] theorem State.takeTrap_map (s : State) (e : Exn) : (s.takeTrap e).map = s.map := rfl
@[simp] theorem State.takeTrap_draws (s : State) (e : Exn) : (s.takeTrap e).draws = s.draws := rfl
@[simp] theorem State.takeTrap_io (s : State) (e : Exn) : (s.takeTrap e).io = s.io := rfl

@[simp] theorem State.reg_takeTrap (s : State) (e : Exn) (r : RegIdx) : (s.takeTrap e).reg r = s.reg r := rfl
@[simp] theorem State.byteAt_takeTrap (s : State) (e : Exn) (x : Word) : (s.takeTrap e).byteAt x = s.byteAt x := rfl

/-! ### `mainStore` -/

@[simp] theorem State.mainStore_regs (s : State) (a : Word) (n : Size) (v : Word) : (s.mainStore a n v).regs = s.regs := rfl
@[simp] theorem State.mainStore_pc (s : State) (a : Word) (n : Size) (v : Word) : (s.mainStore a n v).pc = s.pc := rfl
@[simp] theorem State.mainStore_mem (s : State) (a : Word) (n : Size) (v : Word) : (s.mainStore a n v).mem = storeBytes s.mem a v (sizeBytes n) := rfl
@[simp] theorem State.mainStore_dirty (s : State) (a : Word) (n : Size) (v : Word) : (s.mainStore a n v).dirty = markDirty s.dirty a (sizeBytes n) := rfl
@[simp] theorem State.mainStore_trap (s : State) (a : Word) (n : Size) (v : Word) : (s.mainStore a n v).trap = s.trap := rfl
@[simp] theorem State.mainStore_map (s : State) (a : Word) (n : Size) (v : Word) : (s.mainStore a n v).map = s.map := rfl
@[simp] theorem State.mainStore_draws (s : State) (a : Word) (n : Size) (v : Word) : (s.mainStore a n v).draws = s.draws := rfl
@[simp] theorem State.mainStore_io (s : State) (a : Word) (n : Size) (v : Word) : (s.mainStore a n v).io = s.io := rfl

@[simp] theorem State.reg_mainStore (s : State) (a : Word) (n : Size) (v : Word) (r : RegIdx) : (s.mainStore a n v).reg r = s.reg r := rfl

/-! ### `ioReadDone` -/

@[simp] theorem State.ioReadDone_regs (s : State) (a : Word) (n : Size) : (s.ioReadDone a n).regs = s.regs := rfl
@[simp] theorem State.ioReadDone_pc (s : State) (a : Word) (n : Size) : (s.ioReadDone a n).pc = s.pc := rfl
@[simp] theorem State.ioReadDone_mem (s : State) (a : Word) (n : Size) : (s.ioReadDone a n).mem = s.mem := rfl
@[simp] theorem State.ioReadDone_dirty (s : State) (a : Word) (n : Size) : (s.ioReadDone a n).dirty = s.dirty := rfl
@[simp] theorem State.ioReadDone_trap (s : State) (a : Word) (n : Size) : (s.ioReadDone a n).trap = s.trap := rfl
@[simp] theorem State.ioReadDone_map (s : State) (a : Word) (n : Size) : (s.ioReadDone a n).map = s.map := rfl
@[simp] theorem State.ioReadDone_draws (s : State) (a : Word) (n : Size) : (s.ioReadDone a n).draws = s.draws + 1 := rfl
@[simp] theorem State.ioReadDone_io (s : State) (a : Word) (n : Size) : (s.ioReadDone a n).io = s.io ++ [.read a (sizeBytes n) (s.ioValue a n)] := rfl

@[simp] theorem State.reg_ioReadDone (s : State) (a : Word) (n : Size) (r : RegIdx) : (s.ioReadDone a n).reg r = s.reg r := rfl
@[simp] theorem State.byteAt_ioReadDone (s : State) (a : Word) (n : Size) (x : Word) : (s.ioReadDone a n).byteAt x = s.byteAt x := rfl

/-! ### `ioWriteDone` -/

@[simp] theorem State.ioWriteDone_regs (s : State) (a : Word) (n : Size) (v : Word) : (s.ioWriteDone a n v).regs = s.regs := rfl
@[simp] theorem State.ioWriteDone_pc (s : State) (a : Word) (n : Size) (v : Word) : (s.ioWriteDone a n v).pc = s.pc := rfl
@[simp] theorem State.ioWriteDone_mem (s : State) (a : Word) (n : Size) (v : Word) : (s.ioWriteDone a n v).mem = s.mem := rfl
@[simp] theorem State.ioWriteDone_dirty (s : State) (a : Word) (n : Size) (v : Word) : (s.ioWriteDone a n v).dirty = s.dirty := rfl
@[simp] theorem State.ioWriteDone_trap (s : State) (a : Word) (n : Size) (v : Word) : (s.ioWriteDone a n v).trap = s.trap := rfl
@[simp] theorem State.ioWriteDone_map (s : State) (a : Word) (n : Size) (v : Word) : (s.ioWriteDone a n v).map = s.map := rfl
@[simp] theorem State.ioWriteDone_draws (s : State) (a : Word) (n : Size) (v : Word) : (s.ioWriteDone a n v).draws = s.draws := rfl
@[simp] theorem State.ioWriteDone_io (s : State) (a : Word) (n : Size) (v : Word) : (s.ioWriteDone a n v).io = s.io ++ [.write a (sizeBytes n) (lowBytes n v)] := rfl

@[simp] theorem State.reg_ioWriteDone (s : State) (a : Word) (n : Size) (v : Word) (r : RegIdx) : (s.ioWriteDone a n v).reg r = s.reg r := rfl
@[simp] theorem State.byteAt_ioWriteDone (s : State) (a : Word) (n : Size) (v : Word) (x : Word) : (s.ioWriteDone a n v).byteAt x = s.byteAt x := rfl

/-! ### `setReg` -/

@[simp] theorem State.setReg_pc (s : State) (r : RegIdx) (v : Word) : (s.setReg r v).pc = s.pc := by
  unfold State.setReg; split <;> rfl
@[simp] theorem State.setReg_mem (s : State) (r : RegIdx) (v : Word) : (s.setReg r v).mem = s.mem := by
  unfold State.setReg; split <;> rfl
@[simp] theorem State.setReg_dirty (s : State) (r : RegIdx) (v : Word) : (s.setReg r v).dirty = s.dirty := by
  unfold State.setReg; split <;> rfl
@[simp] theorem State.setReg_trap (s : State) (r : RegIdx) (v : Word) : (s.setReg r v).trap = s.trap := by
  unfold State.setReg; split <;> rfl
@[simp] theorem State.setReg_map (s : State) (r : RegIdx) (v : Word) : (s.setReg r v).map = s.map := by
  unfold State.setReg; split <;> rfl
@[simp] theorem State.setReg_draws (s : State) (r : RegIdx) (v : Word) : (s.setReg r v).draws = s.draws := by
  unfold State.setReg; split <;> rfl
@[simp] theorem State.setReg_io (s : State) (r : RegIdx) (v : Word) : (s.setReg r v).io = s.io := by
  unfold State.setReg; split <;> rfl

@[simp] theorem State.byteAt_setReg (s : State) (r : RegIdx) (v : Word) (x : Word) :
    (s.setReg r v).byteAt x = s.byteAt x := by
  unfold State.byteAt; simp

/-- `x0` reads as zero (R11). -/
@[simp] theorem State.reg_zero (s : State) : s.reg 0#5 = 0#32 := by simp [State.reg]

/-- A write to `x0` is discarded (R11). -/
@[simp] theorem State.setReg_zero (s : State) (v : Word) : s.setReg 0#5 v = s := by simp [State.setReg]

/-- A register other than `x0` has a place of its own. -/
theorem regPlace_inj {a b : RegIdx} (ha : a ≠ 0) (hb : b ≠ 0) : a.toNat - 1 = b.toNat - 1 ↔ b = a := by
  have h1 : a.toNat ≠ 0 := by simpa [BitVec.toNat_eq] using ha
  have h2 : b.toNat ≠ 0 := by simpa [BitVec.toNat_eq] using hb
  rw [BitVec.toNat_eq]; omega

/-- The register written, if it is not `x0`, reads as the value. -/
theorem State.reg_setReg_self (s : State) {r : RegIdx} (v : Word) (h : r ≠ 0) : (s.setReg r v).reg r = v := by
  have h' : ¬ (r = 0#5) := h
  simp [State.reg, State.setReg, h']

/-- Every other register reads as before. -/
theorem State.reg_setReg_ne (s : State) {r q : RegIdx} (v : Word) (h : q ≠ r) : (s.setReg r v).reg q = s.reg q := by
  unfold State.reg State.setReg
  by_cases hq : q = 0
  · simp [hq]
  by_cases hr : r = 0
  · simp [hr]
  have := (regPlace_inj hr hq).not.mpr h
  simp only [hq, hr, if_false]
  exact Vector.getElem_set_ne _ _ (by omega)

end Sys2Proof.Machine
end

