-- ==== Sys2Proof/Laws/Memory.lean ====
section
/-! SUPPORT. Memory as a canonical list: reading after writing, the canonical form under every memory operation, and the
same for the set `dirty`. -/

namespace Sys2Proof.Machine

/-! ### One byte -/

/-- The tail of a canonical memory is canonical. -/
theorem Memory.wf_tail {c : Host.Cell} {m : Memory} (h : Memory.wf (c :: m)) : m.wf :=
  ⟨(List.pairwise_cons.mp h.1).2, fun d hd => h.2 d (List.mem_cons_of_mem _ hd)⟩

/-- Below every listed address a memory reads as unlisted. -/
theorem Memory.read_below {m : Memory} {a : Nat} (h : ∀ c ∈ m, a < c.1) : m.read a = unlistedByte := by
  induction m with
  | nil => rfl
  | cons c m ih =>
    have hc := h c (List.mem_cons_self ..)
    simp only [Memory.read, if_neg (Nat.ne_of_lt hc)]
    exact ih fun d hd => h d (List.mem_cons_of_mem _ hd)

/-- Every listed address of the tail lies above the head's. -/
theorem Memory.head_lt {c : Host.Cell} {m : Memory} (h : Memory.wf (c :: m)) : ∀ d ∈ m, c.1 < d.1 :=
  (List.pairwise_cons.mp h.1).1

/-- The byte written reads as the value. -/
theorem Memory.read_write_self {m : Memory} (h : m.wf) (a : Nat) (v : Byte) : (m.write a v).read a = v := by
  induction m with
  | nil => simp only [Memory.write]; split <;> simp_all [Memory.read]
  | cons c m ih =>
    obtain ⟨k, u⟩ := c
    have hlt := Memory.head_lt h
    simp only [Memory.write]
    rcases Nat.lt_trichotomy a k with hak | hak | hak
    · rw [if_pos hak]
      split
      · next hv =>
        subst hv
        exact Memory.read_below fun d hd => by
          rcases List.mem_cons.mp hd with rfl | hd
          · exact hak
          · exact Nat.lt_trans hak (hlt d hd)
      · simp [Memory.read]
    · subst hak
      rw [if_neg (Nat.lt_irrefl _), if_pos rfl]
      split
      · next hv => subst hv; exact Memory.read_below hlt
      · simp [Memory.read]
    · rw [if_neg (by omega), if_neg (by omega)]
      simp only [Memory.read, if_neg (Nat.ne_of_gt hak)]
      exact ih (Memory.wf_tail h)

/-- Every other byte reads as before. -/
theorem Memory.read_write_ne (m : Memory) {a b : Nat} (v : Byte) (hab : b ≠ a) : (m.write a v).read b = m.read b := by
  induction m with
  | nil => simp only [Memory.write]; split <;> simp [Memory.read, hab]
  | cons c m ih =>
    obtain ⟨k, u⟩ := c
    simp only [Memory.write]
    split
    · split
      · rfl
      · simp [Memory.read, hab]
    · split
      · next _ hk =>
        subst hk
        split <;> simp [Memory.read, hab]
      · simp [Memory.read, ih]

/-- What a written memory lists: what was listed, and the address written. -/
theorem Memory.mem_write {m : Memory} {a : Nat} {v : Byte} {c : Host.Cell} (h : c ∈ m.write a v) :
    c ∈ m ∨ (c = (a, v) ∧ v ≠ unlistedByte) := by
  induction m with
  | nil =>
    simp only [Memory.write] at h
    split at h <;> simp_all
  | cons d m ih =>
    obtain ⟨k, u⟩ := d
    simp only [Memory.write] at h
    split at h
    · split at h
      · exact .inl h
      · next hv =>
        rcases List.mem_cons.mp h with rfl | h
        · exact .inr ⟨rfl, hv⟩
        · exact .inl h
    · split at h
      · split at h
        · exact .inl (List.mem_cons_of_mem _ h)
        · next hv =>
          rcases List.mem_cons.mp h with rfl | h
          · exact .inr ⟨rfl, hv⟩
          · exact .inl (List.mem_cons_of_mem _ h)
      · rcases List.mem_cons.mp h with rfl | h
        · exact .inl (List.mem_cons_self ..)
        · rcases ih h with h | h
          · exact .inl (List.mem_cons_of_mem _ h)
          · exact .inr h

/-- A write keeps the addresses strictly rising. -/
theorem Memory.write_rising {m : Memory} (h : m.Pairwise fun c d => c.1 < d.1) (a : Nat) (v : Byte) :
    (m.write a v).Pairwise fun c d => c.1 < d.1 := by
  induction m with
  | nil => simp only [Memory.write]; split <;> simp
  | cons d m ih =>
    obtain ⟨k, u⟩ := d
    obtain ⟨hlt, hm⟩ := List.pairwise_cons.mp h
    simp only [Memory.write]
    split
    · next hak =>
      split
      · exact h
      · refine List.pairwise_cons.mpr ⟨fun c hc => ?_, h⟩
        rcases List.mem_cons.mp hc with rfl | hc
        · exact hak
        · exact Nat.lt_trans hak (hlt c hc)
    · split
      · next hk =>
        subst hk
        split
        · exact hm
        · exact List.pairwise_cons.mpr ⟨hlt, hm⟩
      · refine List.pairwise_cons.mpr ⟨fun c hc => ?_, ih hm⟩
        rcases Memory.mem_write hc with hc | ⟨rfl, -⟩
        · exact hlt c hc
        · show k < a; omega

/-! ### Several bytes -/

/-- The `k`-th byte address of an access that is aligned to a width that divides 4 does not wrap (R33). -/
theorem byteAddr_toNat {addr : Word} {k n : Nat} (hn : n = 1 ∨ n = 2 ∨ n = 4) (ha : addr.toNat % n = 0) (hk : k < n) :
    (byteAddr addr k).toNat = addr.toNat + k := by
  have h := addr.isLt
  simp only [byteAddr, BitVec.toNat_add, BitVec.toNat_ofNat]
  rcases hn with rfl | rfl | rfl <;> omega

/-- Different bytes of one access have different addresses. -/
theorem byteAddr_inj {addr : Word} {j k : Nat} (hj : j < 2 ^ 32) (hk : k < 2 ^ 32) (h : byteAddr addr j = byteAddr addr k) :
    j = k := by
  have h2 : BitVec.ofNat 32 j = BitVec.ofNat 32 k := by simpa [byteAddr] using h
  have h3 := congrArg BitVec.toNat h2
  simp only [BitVec.toNat_ofNat] at h3
  omega

/-- Bytes outside the access read as before. -/
theorem read_storeBytes_ne (m : Memory) (addr v : Word) {n b : Nat} (h : ∀ k, k < n → b ≠ (byteAddr addr k).toNat) :
    (storeBytes m addr v n).read b = m.read b := by
  induction n with
  | zero => rfl
  | succ n ih =>
    rw [storeBytes, Memory.read_write_ne _ _ (h n (Nat.lt_succ_self n))]
    exact ih fun k hk => h k (Nat.lt_succ_of_lt hk)

/-- Storing bytes keeps the addresses strictly rising. -/
theorem storeBytes_rising {m : Memory} (h : m.Pairwise fun c d => c.1 < d.1) (addr v : Word) (n : Nat) :
    (storeBytes m addr v n).Pairwise fun c d => c.1 < d.1 := by
  induction n with
  | zero => exact h
  | succ n ih => exact Memory.write_rising ih _ _

/-- What a memory lists after bytes are stored: what was listed, and addresses of the access. -/
theorem mem_storeBytes {m : Memory} {addr v : Word} {n : Nat} {c : Host.Cell} (h : c ∈ storeBytes m addr v n) :
    c ∈ m ∨ (c.2 ≠ unlistedByte ∧ ∃ k, k < n ∧ c.1 = (byteAddr addr k).toNat) := by
  induction n with
  | zero => exact .inl h
  | succ n ih =>
    rcases Memory.mem_write h with h | ⟨rfl, hv⟩
    · rcases ih h with h | ⟨hv, k, hk, he⟩
      · exact .inl h
      · exact .inr ⟨hv, k, Nat.lt_succ_of_lt hk, he⟩
    · exact .inr ⟨hv, n, Nat.lt_succ_self n, rfl⟩

/-- Storing bytes keeps the canonical form. -/
theorem storeBytes_wf {m : Memory} (h : m.wf) (addr v : Word) (n : Nat) : (storeBytes m addr v n).wf := by
  refine ⟨storeBytes_rising h.1 addr v n, fun c hc => ?_⟩
  rcases mem_storeBytes hc with hc | ⟨hv, k, -, he⟩
  · exact h.2 c hc
  · exact ⟨he ▸ (byteAddr addr k).isLt, hv⟩

/-- The bytes of the access read as the bytes of the value, lowest first (R30, R34). -/
theorem read_storeBytes_self {m : Memory} (h : m.wf) (addr v : Word) {n k : Nat} (hn : n < 2 ^ 32) (hk : k < n) :
    (storeBytes m addr v n).read (byteAddr addr k).toNat = wordByte v k := by
  induction n with
  | zero => omega
  | succ n ih =>
    rw [storeBytes]
    by_cases he : k = n
    · subst he; exact Memory.read_write_self (storeBytes_wf h addr v k) _ _
    · rw [Memory.read_write_ne]
      · exact ih (by omega) (by omega)
      · intro hc
        exact he (byteAddr_inj (by omega) (by omega) (BitVec.eq_of_toNat_eq hc))

/-! ### The set `dirty` -/

/-- Membership in a set with one more address. -/
theorem mem_insertAddr {d : List Nat} {a x : Nat} : x ∈ insertAddr d a ↔ x ∈ d ∨ x = a := by
  induction d with
  | nil => simp [insertAddr]
  | cons k d ih =>
    simp only [insertAddr]
    split
    · simp only [List.mem_cons]; tauto
    · split
      · next h => subst h; simp only [List.mem_cons]; tauto
      · simp only [List.mem_cons, ih]; tauto

/-- Inserting keeps the addresses strictly rising. -/
theorem insertAddr_rising {d : List Nat} (h : d.Pairwise (· < ·)) (a : Nat) : (insertAddr d a).Pairwise (· < ·) := by
  induction d with
  | nil => simp [insertAddr]
  | cons k d ih =>
    obtain ⟨hlt, hd⟩ := List.pairwise_cons.mp h
    simp only [insertAddr]
    split
    · next hak =>
      refine List.pairwise_cons.mpr ⟨fun x hx => ?_, h⟩
      rcases List.mem_cons.mp hx with rfl | hx
      · exact hak
      · exact Nat.lt_trans hak (hlt x hx)
    · split
      · exact h
      · refine List.pairwise_cons.mpr ⟨fun x hx => ?_, ih hd⟩
        rcases mem_insertAddr.mp hx with hx | rfl
        · exact hlt x hx
        · omega

/-- Membership in `dirty` after an access is marked (R34). -/
theorem mem_markDirty {d : List Nat} {addr : Word} {n x : Nat} :
    x ∈ markDirty d addr n ↔ x ∈ d ∨ ∃ k, k < n ∧ x = (byteAddr addr k).toNat := by
  induction n with
  | zero => simp [markDirty]
  | succ n ih =>
    rw [markDirty, mem_insertAddr, ih]
    constructor
    · rintro ((h | ⟨k, hk, h⟩) | h)
      · exact .inl h
      · exact .inr ⟨k, Nat.lt_succ_of_lt hk, h⟩
      · exact .inr ⟨n, Nat.lt_succ_self n, h⟩
    · rintro (h | ⟨k, hk, h⟩)
      · exact .inl (.inl h)
      · rcases Nat.lt_succ_iff_lt_or_eq.mp hk with hk | rfl
        · exact .inl (.inr ⟨k, hk, h⟩)
        · exact .inr h

/-- Marking keeps the addresses strictly rising. -/
theorem markDirty_rising {d : List Nat} (h : d.Pairwise (· < ·)) (addr : Word) (n : Nat) :
    (markDirty d addr n).Pairwise (· < ·) := by
  induction n with
  | zero => exact h
  | succ n ih => exact insertAddr_rising ih _

/-! ### The map -/

/-- What `Permitted` grants (R38), byte by byte: one kind, not absent, and the permission bit. -/
theorem permitted_iff {m : Config.MemMap} {addr : Word} {n : Nat} {op : Config.Access} :
    permitted m addr n op = true ↔ kindAt m addr ≠ .absent ∧
      ∀ k, k < n → kindAt m (byteAddr addr k) = kindAt m addr ∧ allowsAt m (byteAddr addr k) op = true := by
  simp [permitted, List.all_eq_true]

/-- A byte that can be fetched is main memory (R37: an `io` byte is never executable). -/
theorem kindAt_of_executable {m : Config.MemMap} {a : Word} (h : allowsAt m a .execute = true) : kindAt m a = .main := by
  unfold allowsAt at h; unfold kindAt
  revert h
  cases mapAttr m a.toNat <;> simp [attrAllows, attrKind]

/-- `dirty` overlaps the 4 bytes at an address exactly when it holds one of their addresses (R35). -/
theorem isStale_iff {d : List Nat} {addr : Word} :
    isStale d addr = true ↔ ∃ k, k < 4 ∧ (byteAddr addr k).toNat ∈ d := by
  simp [isStale, List.any_eq_true]

end Sys2Proof.Machine
end

