-- ==== Sys2Proof/Laws/Ops.lean ====
section
/-! SUPPORT. One lemma per shared operation that says once everything it can do; later proofs cite these and do not unfold
the operations. -/

namespace Sys2Proof.Machine

/-- `raise` takes the trap and answers. -/
theorem raise_next {e : Exn} {s t : State} (h : raise e s = .next t) : t = s.takeTrap e := by
  simpa [raise, eq_comm] using h

/-- `writeBack` writes the register and advances. -/
theorem writeBack_next {rd : RegIdx} {v : Word} {s t : State} (h : writeBack rd v s = .next t) :
    t = (s.setReg rd v).advance := by
  simpa [writeBack, eq_comm] using h

/-- The four answers of `MemRead` (R33). -/
theorem memRead_cases (addr : Word) (n : Size) (s : State) :
    (aligned addr n = false ∧ memRead addr n s = .error ⟨.loadAddressMisaligned, addr⟩) ∨
    (aligned addr n = true ∧ permitted s.map addr (sizeBytes n) .read = false ∧
      memRead addr n s = .error ⟨.loadAccessFault, addr⟩) ∨
    (aligned addr n = true ∧ permitted s.map addr (sizeBytes n) .read = true ∧ kindAt s.map addr = .main ∧
      memRead addr n s = .ok (s.mainValue addr n, s)) ∨
    (aligned addr n = true ∧ permitted s.map addr (sizeBytes n) .read = true ∧ kindAt s.map addr ≠ .main ∧
      memRead addr n s = .ok (s.ioValue addr n, s.ioReadDone addr n)) := by
  unfold memRead
  cases aligned addr n <;> cases permitted s.map addr (sizeBytes n) .read <;>
    by_cases hk : kindAt s.map addr = .main <;> simp [hk]

/-- The four answers of `MemWrite` (R34). -/
theorem memWrite_cases (addr : Word) (n : Size) (v : Word) (s : State) :
    (aligned addr n = false ∧ memWrite addr n v s = .error ⟨.storeAddressMisaligned, addr⟩) ∨
    (aligned addr n = true ∧ permitted s.map addr (sizeBytes n) .write = false ∧
      memWrite addr n v s = .error ⟨.storeAccessFault, addr⟩) ∨
    (aligned addr n = true ∧ permitted s.map addr (sizeBytes n) .write = true ∧ kindAt s.map addr = .main ∧
      memWrite addr n v s = .ok (s.mainStore addr n v)) ∨
    (aligned addr n = true ∧ permitted s.map addr (sizeBytes n) .write = true ∧ kindAt s.map addr ≠ .main ∧
      memWrite addr n v s = .ok (s.ioWriteDone addr n v)) := by
  unfold memWrite
  cases aligned addr n <;> cases permitted s.map addr (sizeBytes n) .write <;>
    by_cases hk : kindAt s.map addr = .main <;> simp [hk]

/-- Everything a load can do (R100): trap, or write back the extended value of main memory or of a device. -/
theorem loadOp_next {n : Size} {extend : Word → Word} {rd rs1 : RegIdx} {imm : BitVec 12} {s t : State}
    (h : loadOp n extend rd rs1 imm s = .next t) :
    (aligned (effAddr rs1 imm s) n = false ∧ t = s.takeTrap ⟨.loadAddressMisaligned, effAddr rs1 imm s⟩) ∨
    (aligned (effAddr rs1 imm s) n = true ∧ permitted s.map (effAddr rs1 imm s) (sizeBytes n) .read = false ∧
      t = s.takeTrap ⟨.loadAccessFault, effAddr rs1 imm s⟩) ∨
    (aligned (effAddr rs1 imm s) n = true ∧ permitted s.map (effAddr rs1 imm s) (sizeBytes n) .read = true ∧
      kindAt s.map (effAddr rs1 imm s) = .main ∧
      t = (s.setReg rd (extend (s.mainValue (effAddr rs1 imm s) n))).advance) ∨
    (aligned (effAddr rs1 imm s) n = true ∧ permitted s.map (effAddr rs1 imm s) (sizeBytes n) .read = true ∧
      kindAt s.map (effAddr rs1 imm s) ≠ .main ∧
      t = ((s.ioReadDone (effAddr rs1 imm s) n).setReg rd (extend (s.ioValue (effAddr rs1 imm s) n))).advance) := by
  unfold loadOp at h
  rcases memRead_cases (effAddr rs1 imm s) n s with ⟨ha, hr⟩ | ⟨ha, hp, hr⟩ | ⟨ha, hp, hk, hr⟩ | ⟨ha, hp, hk, hr⟩ <;>
    rw [hr] at h
  · exact .inl ⟨ha, raise_next h⟩
  · exact .inr (.inl ⟨ha, hp, raise_next h⟩)
  · exact .inr (.inr (.inl ⟨ha, hp, hk, writeBack_next h⟩))
  · exact .inr (.inr (.inr ⟨ha, hp, hk, writeBack_next h⟩))

/-- Everything a store can do (R155): trap, or store to main memory or to a device and advance. -/
theorem storeOp_next {n : Size} {rs2 rs1 : RegIdx} {imm : BitVec 12} {s t : State}
    (h : storeOp n rs2 rs1 imm s = .next t) :
    (aligned (effAddr rs1 imm s) n = false ∧ t = s.takeTrap ⟨.storeAddressMisaligned, effAddr rs1 imm s⟩) ∨
    (aligned (effAddr rs1 imm s) n = true ∧ permitted s.map (effAddr rs1 imm s) (sizeBytes n) .write = false ∧
      t = s.takeTrap ⟨.storeAccessFault, effAddr rs1 imm s⟩) ∨
    (aligned (effAddr rs1 imm s) n = true ∧ permitted s.map (effAddr rs1 imm s) (sizeBytes n) .write = true ∧
      kindAt s.map (effAddr rs1 imm s) = .main ∧
      t = (s.mainStore (effAddr rs1 imm s) n (s.reg rs2)).advance) ∨
    (aligned (effAddr rs1 imm s) n = true ∧ permitted s.map (effAddr rs1 imm s) (sizeBytes n) .write = true ∧
      kindAt s.map (effAddr rs1 imm s) ≠ .main ∧
      t = (s.ioWriteDone (effAddr rs1 imm s) n (s.reg rs2)).advance) := by
  unfold storeOp at h
  rcases memWrite_cases (effAddr rs1 imm s) n (s.reg rs2) s with
    ⟨ha, hr⟩ | ⟨ha, hp, hr⟩ | ⟨ha, hp, hk, hr⟩ | ⟨ha, hp, hk, hr⟩ <;> rw [hr] at h
  · exact .inl ⟨ha, raise_next h⟩
  · exact .inr (.inl ⟨ha, hp, raise_next h⟩)
  · exact .inr (.inr (.inl ⟨ha, hp, hk, by simpa [eq_comm] using h⟩))
  · exact .inr (.inr (.inr ⟨ha, hp, hk, by simpa [eq_comm] using h⟩))

/-- Everything a branch can do (R160). -/
theorem branchOp_next {taken : Bool} {offset : BitVec 13} {s t : State} (h : branchOp taken offset s = .next t) :
    (taken = true ∧ (pcRelative (immB offset) s).getLsbD 1 = true ∧
      t = s.takeTrap ⟨.instructionAddressMisaligned, pcRelative (immB offset) s⟩) ∨
    (taken = true ∧ (pcRelative (immB offset) s).getLsbD 1 = false ∧ t = s.setPc (pcRelative (immB offset) s)) ∨
    (taken = false ∧ t = s.advance) := by
  unfold branchOp at h
  cases taken
  · exact .inr (.inr ⟨rfl, by simpa [eq_comm] using h⟩)
  · cases hb : (pcRelative (immB offset) s).getLsbD 1 <;> rw [hb] at h
    · exact .inr (.inl ⟨rfl, rfl, by simpa [eq_comm] using h⟩)
    · exact .inl ⟨rfl, rfl, raise_next (by simpa using h)⟩

/-- Everything a jump can do (R125, R175). -/
theorem jumpOp_next {target : Word} {rd : RegIdx} {s t : State} (h : jumpOp target rd s = .next t) :
    (target.getLsbD 1 = true ∧ t = s.takeTrap ⟨.instructionAddressMisaligned, target⟩) ∨
    (target.getLsbD 1 = false ∧ t = (s.setReg rd (s.pc + 4)).setPc target) := by
  unfold jumpOp at h
  cases hb : target.getLsbD 1 <;> rw [hb] at h
  · exact .inr ⟨rfl, by simpa [eq_comm] using h⟩
  · exact .inl ⟨rfl, raise_next (by simpa using h)⟩

/-- Everything a CSR instruction can do (R130, R137): a read that is not followed by a write puts one draw, or 0 where
nothing is read, in `rd`; everything else raises IllegalInstruction. -/
theorem csrInstr_cases (inst : Word) (op : CsrOp) (src : Word) (doRead doWrite : Bool) (rd : RegIdx) (c : CsrAddr)
    (s : State) :
    (doRead = true ∧ doWrite = false ∧ isCounter c = true ∧
      csrInstr inst op src doRead doWrite rd c s =
        .next ((({ s with draws := s.draws + 1 } : State).setReg rd (Config.counterRead s.draws c)).advance)) ∨
    (doRead = false ∧ doWrite = false ∧ csrInstr inst op src doRead doWrite rd c s = .next (s.setReg rd 0).advance) ∨
    ((doWrite = true ∨ (doRead = true ∧ isCounter c = false)) ∧
      csrInstr inst op src doRead doWrite rd c s = .next (s.takeTrap ⟨.illegalInstruction, inst⟩)) := by
  cases doRead <;> cases doWrite <;> cases hc : isCounter c <;>
    simp [csrInstr, csrReadIf, csrWriteIf, csrRead, csrWrite, raise, writeBack, hc]

/-- What a step can do (R7, R184), in the order of its checks. -/
theorem hartStep_cases (s : State) :
    (∃ tr, s.trap = some tr ∧ hartStep s = .fault (.trapped tr)) ∨
    (s.trap = none ∧ ¬ pcAligned s ∧
      hartStep s = .next (s.takeTrap ⟨.instructionAddressMisaligned, s.pc⟩)) ∨
    (s.trap = none ∧ pcAligned s ∧ permitted s.map s.pc 4 .execute = false ∧
      hartStep s = .next (s.takeTrap ⟨.instructionAccessFault, s.pc⟩)) ∨
    (s.trap = none ∧ pcAligned s ∧ permitted s.map s.pc 4 .execute = true ∧ isStale s.dirty s.pc = true ∧
      hartStep s = .refused (.staleFetch s.pc)) ∨
    (∃ w c, Fetches s w ∧ decode w = .error c ∧ hartStep s = .next (s.takeTrap ⟨.illegalInstruction, w⟩)) ∨
    (∃ w i, Fetches s w ∧ decode w = .ok i ∧ hartStep s = exec i s) := by
  unfold hartStep
  cases htr : s.trap with
  | some tr => exact .inl ⟨tr, rfl, rfl⟩
  | none =>
    by_cases hpc : pcAligned s
    · have hpc' : s.pc.extractLsb' 0 2 = 0#2 := hpc
      simp only [hpc', ne_eq, not_true_eq_false, if_false]
      cases hx : permitted s.map s.pc 4 .execute with
      | false => exact .inr (.inr (.inl ⟨by simp, hpc, by simp, by simp [fetch, hx, raise]⟩))
      | true =>
        cases hd : isStale s.dirty s.pc with
        | true => exact .inr (.inr (.inr (.inl ⟨by simp, hpc, by simp, by simp, by simp [fetch, hx, hd]⟩)))
        | false =>
          have hf : Fetches s (s.mainValue s.pc .word) := ⟨htr, hpc, hx, hd, rfl⟩
          have he : fetch s.pc s = .word (s.mainValue s.pc .word) := by simp [fetch, hx, hd]
          rw [he]
          cases hw : decode (s.mainValue s.pc .word) with
          | error c => exact .inr (.inr (.inr (.inr (.inl ⟨_, c, hf, hw, by simp [raise, hw]⟩))))
          | ok i => exact .inr (.inr (.inr (.inr (.inr ⟨_, i, hf, hw, by simp [hw]⟩))))
    · refine .inr (.inl ⟨rfl, hpc, ?_⟩)
      have hpc' : ¬ s.pc.extractLsb' 0 2 = 0#2 := hpc
      simp [hpc', raise]

end Sys2Proof.Machine
end

