-- ==== Sys2Proof/Laws/Decode.lean ====
section
/-! SUPPORT. The fields of a packed word and the packing of a word's fields, one lemma per format and field (R51, R52), so
that no proof unfolds a format; and the bytes of a word (R30). -/

namespace Sys2Proof

/-! ### `packR` -/

@[simp] theorem opcodeField_packR (funct7 : BitVec 7) (rs2 rs1 : RegIdx) (funct3 : BitVec 3) (rd : RegIdx) (opcode : BitVec 7) :
    opcodeField (packR funct7 rs2 rs1 funct3 rd opcode) = opcode := by
  apply BitVec.eq_of_getLsbD_eq
  intro i hi
  unfold opcodeField packR
  simp only [BitVec.getLsbD_append, BitVec.getLsbD_extractLsb']
  interval_cases i <;> simp

@[simp] theorem rdField_packR (funct7 : BitVec 7) (rs2 rs1 : RegIdx) (funct3 : BitVec 3) (rd : RegIdx) (opcode : BitVec 7) :
    rdField (packR funct7 rs2 rs1 funct3 rd opcode) = rd := by
  apply BitVec.eq_of_getLsbD_eq
  intro i hi
  unfold rdField packR
  simp only [BitVec.getLsbD_append, BitVec.getLsbD_extractLsb']
  interval_cases i <;> simp

@[simp] theorem funct3Field_packR (funct7 : BitVec 7) (rs2 rs1 : RegIdx) (funct3 : BitVec 3) (rd : RegIdx) (opcode : BitVec 7) :
    funct3Field (packR funct7 rs2 rs1 funct3 rd opcode) = funct3 := by
  apply BitVec.eq_of_getLsbD_eq
  intro i hi
  unfold funct3Field packR
  simp only [BitVec.getLsbD_append, BitVec.getLsbD_extractLsb']
  interval_cases i <;> simp

@[simp] theorem rs1Field_packR (funct7 : BitVec 7) (rs2 rs1 : RegIdx) (funct3 : BitVec 3) (rd : RegIdx) (opcode : BitVec 7) :
    rs1Field (packR funct7 rs2 rs1 funct3 rd opcode) = rs1 := by
  apply BitVec.eq_of_getLsbD_eq
  intro i hi
  unfold rs1Field packR
  simp only [BitVec.getLsbD_append, BitVec.getLsbD_extractLsb']
  interval_cases i <;> simp

@[simp] theorem rs2Field_packR (funct7 : BitVec 7) (rs2 rs1 : RegIdx) (funct3 : BitVec 3) (rd : RegIdx) (opcode : BitVec 7) :
    rs2Field (packR funct7 rs2 rs1 funct3 rd opcode) = rs2 := by
  apply BitVec.eq_of_getLsbD_eq
  intro i hi
  unfold rs2Field packR
  simp only [BitVec.getLsbD_append, BitVec.getLsbD_extractLsb']
  interval_cases i <;> simp

@[simp] theorem funct7Field_packR (funct7 : BitVec 7) (rs2 rs1 : RegIdx) (funct3 : BitVec 3) (rd : RegIdx) (opcode : BitVec 7) :
    funct7Field (packR funct7 rs2 rs1 funct3 rd opcode) = funct7 := by
  apply BitVec.eq_of_getLsbD_eq
  intro i hi
  unfold funct7Field packR
  simp only [BitVec.getLsbD_append, BitVec.getLsbD_extractLsb']
  interval_cases i <;> simp

/-! ### `packI` -/

@[simp] theorem opcodeField_packI (imm : BitVec 12) (rs1 : RegIdx) (funct3 : BitVec 3) (rd : RegIdx) (opcode : BitVec 7) :
    opcodeField (packI imm rs1 funct3 rd opcode) = opcode := by
  apply BitVec.eq_of_getLsbD_eq
  intro i hi
  unfold opcodeField packI
  simp only [BitVec.getLsbD_append, BitVec.getLsbD_extractLsb']
  interval_cases i <;> simp

@[simp] theorem rdField_packI (imm : BitVec 12) (rs1 : RegIdx) (funct3 : BitVec 3) (rd : RegIdx) (opcode : BitVec 7) :
    rdField (packI imm rs1 funct3 rd opcode) = rd := by
  apply BitVec.eq_of_getLsbD_eq
  intro i hi
  unfold rdField packI
  simp only [BitVec.getLsbD_append, BitVec.getLsbD_extractLsb']
  interval_cases i <;> simp

@[simp] theorem funct3Field_packI (imm : BitVec 12) (rs1 : RegIdx) (funct3 : BitVec 3) (rd : RegIdx) (opcode : BitVec 7) :
    funct3Field (packI imm rs1 funct3 rd opcode) = funct3 := by
  apply BitVec.eq_of_getLsbD_eq
  intro i hi
  unfold funct3Field packI
  simp only [BitVec.getLsbD_append, BitVec.getLsbD_extractLsb']
  interval_cases i <;> simp

@[simp] theorem rs1Field_packI (imm : BitVec 12) (rs1 : RegIdx) (funct3 : BitVec 3) (rd : RegIdx) (opcode : BitVec 7) :
    rs1Field (packI imm rs1 funct3 rd opcode) = rs1 := by
  apply BitVec.eq_of_getLsbD_eq
  intro i hi
  unfold rs1Field packI
  simp only [BitVec.getLsbD_append, BitVec.getLsbD_extractLsb']
  interval_cases i <;> simp

@[simp] theorem immIField_packI (imm : BitVec 12) (rs1 : RegIdx) (funct3 : BitVec 3) (rd : RegIdx) (opcode : BitVec 7) :
    immIField (packI imm rs1 funct3 rd opcode) = imm := by
  apply BitVec.eq_of_getLsbD_eq
  intro i hi
  unfold immIField packI
  simp only [BitVec.getLsbD_append, BitVec.getLsbD_extractLsb']
  interval_cases i <;> simp

@[simp] theorem fmField_packI (imm : BitVec 12) (rs1 : RegIdx) (funct3 : BitVec 3) (rd : RegIdx) (opcode : BitVec 7) :
    fmField (packI imm rs1 funct3 rd opcode) = imm.extractLsb' 8 4 := by
  apply BitVec.eq_of_getLsbD_eq
  intro i hi
  unfold fmField packI
  simp only [BitVec.getLsbD_append, BitVec.getLsbD_extractLsb']
  interval_cases i <;> simp

@[simp] theorem predField_packI (imm : BitVec 12) (rs1 : RegIdx) (funct3 : BitVec 3) (rd : RegIdx) (opcode : BitVec 7) :
    predField (packI imm rs1 funct3 rd opcode) = imm.extractLsb' 4 4 := by
  apply BitVec.eq_of_getLsbD_eq
  intro i hi
  unfold predField packI
  simp only [BitVec.getLsbD_append, BitVec.getLsbD_extractLsb']
  interval_cases i <;> simp

@[simp] theorem succField_packI (imm : BitVec 12) (rs1 : RegIdx) (funct3 : BitVec 3) (rd : RegIdx) (opcode : BitVec 7) :
    succField (packI imm rs1 funct3 rd opcode) = imm.extractLsb' 0 4 := by
  apply BitVec.eq_of_getLsbD_eq
  intro i hi
  unfold succField packI
  simp only [BitVec.getLsbD_append, BitVec.getLsbD_extractLsb']
  interval_cases i <;> simp

/-! ### `packS` -/

@[simp] theorem opcodeField_packS (imm : BitVec 12) (rs2 rs1 : RegIdx) (funct3 : BitVec 3) (opcode : BitVec 7) :
    opcodeField (packS imm rs2 rs1 funct3 opcode) = opcode := by
  apply BitVec.eq_of_getLsbD_eq
  intro i hi
  unfold opcodeField packS
  simp only [BitVec.getLsbD_append, BitVec.getLsbD_extractLsb']
  interval_cases i <;> simp

@[simp] theorem funct3Field_packS (imm : BitVec 12) (rs2 rs1 : RegIdx) (funct3 : BitVec 3) (opcode : BitVec 7) :
    funct3Field (packS imm rs2 rs1 funct3 opcode) = funct3 := by
  apply BitVec.eq_of_getLsbD_eq
  intro i hi
  unfold funct3Field packS
  simp only [BitVec.getLsbD_append, BitVec.getLsbD_extractLsb']
  interval_cases i <;> simp

@[simp] theorem rs1Field_packS (imm : BitVec 12) (rs2 rs1 : RegIdx) (funct3 : BitVec 3) (opcode : BitVec 7) :
    rs1Field (packS imm rs2 rs1 funct3 opcode) = rs1 := by
  apply BitVec.eq_of_getLsbD_eq
  intro i hi
  unfold rs1Field packS
  simp only [BitVec.getLsbD_append, BitVec.getLsbD_extractLsb']
  interval_cases i <;> simp

@[simp] theorem rs2Field_packS (imm : BitVec 12) (rs2 rs1 : RegIdx) (funct3 : BitVec 3) (opcode : BitVec 7) :
    rs2Field (packS imm rs2 rs1 funct3 opcode) = rs2 := by
  apply BitVec.eq_of_getLsbD_eq
  intro i hi
  unfold rs2Field packS
  simp only [BitVec.getLsbD_append, BitVec.getLsbD_extractLsb']
  interval_cases i <;> simp

@[simp] theorem immSField_packS (imm : BitVec 12) (rs2 rs1 : RegIdx) (funct3 : BitVec 3) (opcode : BitVec 7) :
    immSField (packS imm rs2 rs1 funct3 opcode) = imm := by
  apply BitVec.eq_of_getLsbD_eq
  intro i hi
  unfold immSField funct7Field rdField packS
  simp only [BitVec.getLsbD_append, BitVec.getLsbD_extractLsb']
  interval_cases i <;> simp

/-! ### `packB` -/

@[simp] theorem opcodeField_packB (imm : BitVec 13) (rs2 rs1 : RegIdx) (funct3 : BitVec 3) (opcode : BitVec 7) :
    opcodeField (packB imm rs2 rs1 funct3 opcode) = opcode := by
  apply BitVec.eq_of_getLsbD_eq
  intro i hi
  unfold opcodeField packB
  simp only [BitVec.getLsbD_append, BitVec.getLsbD_extractLsb']
  interval_cases i <;> simp

@[simp] theorem funct3Field_packB (imm : BitVec 13) (rs2 rs1 : RegIdx) (funct3 : BitVec 3) (opcode : BitVec 7) :
    funct3Field (packB imm rs2 rs1 funct3 opcode) = funct3 := by
  apply BitVec.eq_of_getLsbD_eq
  intro i hi
  unfold funct3Field packB
  simp only [BitVec.getLsbD_append, BitVec.getLsbD_extractLsb']
  interval_cases i <;> simp

@[simp] theorem rs1Field_packB (imm : BitVec 13) (rs2 rs1 : RegIdx) (funct3 : BitVec 3) (opcode : BitVec 7) :
    rs1Field (packB imm rs2 rs1 funct3 opcode) = rs1 := by
  apply BitVec.eq_of_getLsbD_eq
  intro i hi
  unfold rs1Field packB
  simp only [BitVec.getLsbD_append, BitVec.getLsbD_extractLsb']
  interval_cases i <;> simp

@[simp] theorem rs2Field_packB (imm : BitVec 13) (rs2 rs1 : RegIdx) (funct3 : BitVec 3) (opcode : BitVec 7) :
    rs2Field (packB imm rs2 rs1 funct3 opcode) = rs2 := by
  apply BitVec.eq_of_getLsbD_eq
  intro i hi
  unfold rs2Field packB
  simp only [BitVec.getLsbD_append, BitVec.getLsbD_extractLsb']
  interval_cases i <;> simp

@[simp] theorem immBField_packB (imm : BitVec 13) (rs2 rs1 : RegIdx) (funct3 : BitVec 3) (opcode : BitVec 7) (h : imm.getLsbD 0 = false) :
    immBField (packB imm rs2 rs1 funct3 opcode) = imm := by
  apply BitVec.eq_of_getLsbD_eq
  intro i hi
  unfold immBField packB
  simp only [BitVec.getLsbD_append, BitVec.getLsbD_extractLsb']
  have h0 : imm[0] = false := by simpa using h
  interval_cases i <;> simp [h0]

/-! ### `packU` -/

@[simp] theorem opcodeField_packU (imm : BitVec 20) (rd : RegIdx) (opcode : BitVec 7) :
    opcodeField (packU imm rd opcode) = opcode := by
  apply BitVec.eq_of_getLsbD_eq
  intro i hi
  unfold opcodeField packU
  simp only [BitVec.getLsbD_append, BitVec.getLsbD_extractLsb']
  interval_cases i <;> simp

@[simp] theorem rdField_packU (imm : BitVec 20) (rd : RegIdx) (opcode : BitVec 7) :
    rdField (packU imm rd opcode) = rd := by
  apply BitVec.eq_of_getLsbD_eq
  intro i hi
  unfold rdField packU
  simp only [BitVec.getLsbD_append, BitVec.getLsbD_extractLsb']
  interval_cases i <;> simp

@[simp] theorem immUField_packU (imm : BitVec 20) (rd : RegIdx) (opcode : BitVec 7) :
    immUField (packU imm rd opcode) = imm := by
  apply BitVec.eq_of_getLsbD_eq
  intro i hi
  unfold immUField packU
  simp only [BitVec.getLsbD_append, BitVec.getLsbD_extractLsb']
  interval_cases i <;> simp

/-! ### `packJ` -/

@[simp] theorem opcodeField_packJ (imm : BitVec 21) (rd : RegIdx) (opcode : BitVec 7) :
    opcodeField (packJ imm rd opcode) = opcode := by
  apply BitVec.eq_of_getLsbD_eq
  intro i hi
  unfold opcodeField packJ
  simp only [BitVec.getLsbD_append, BitVec.getLsbD_extractLsb']
  interval_cases i <;> simp

@[simp] theorem rdField_packJ (imm : BitVec 21) (rd : RegIdx) (opcode : BitVec 7) :
    rdField (packJ imm rd opcode) = rd := by
  apply BitVec.eq_of_getLsbD_eq
  intro i hi
  unfold rdField packJ
  simp only [BitVec.getLsbD_append, BitVec.getLsbD_extractLsb']
  interval_cases i <;> simp

@[simp] theorem immJField_packJ (imm : BitVec 21) (rd : RegIdx) (opcode : BitVec 7) (h : imm.getLsbD 0 = false) :
    immJField (packJ imm rd opcode) = imm := by
  apply BitVec.eq_of_getLsbD_eq
  intro i hi
  unfold immJField packJ
  simp only [BitVec.getLsbD_append, BitVec.getLsbD_extractLsb']
  have h0 : imm[0] = false := by simpa using h
  interval_cases i <;> simp [h0]

/-! ### Packing a word's own fields gives the word back -/

theorem packR_fields (w : Word) : packR (funct7Field w) (rs2Field w) (rs1Field w) (funct3Field w) (rdField w) (opcodeField w) = w := by
  apply BitVec.eq_of_getLsbD_eq
  intro i hi
  unfold packR funct7Field rs2Field rs1Field funct3Field rdField opcodeField
  simp only [BitVec.getLsbD_append, BitVec.getLsbD_extractLsb']
  interval_cases i <;> simp

theorem packI_fields (w : Word) : packI (immIField w) (rs1Field w) (funct3Field w) (rdField w) (opcodeField w) = w := by
  apply BitVec.eq_of_getLsbD_eq
  intro i hi
  unfold packI immIField rs1Field funct3Field rdField opcodeField
  simp only [BitVec.getLsbD_append, BitVec.getLsbD_extractLsb']
  interval_cases i <;> simp

theorem packS_fields (w : Word) : packS (immSField w) (rs2Field w) (rs1Field w) (funct3Field w) (opcodeField w) = w := by
  apply BitVec.eq_of_getLsbD_eq
  intro i hi
  unfold packS immSField funct7Field rdField rs2Field rs1Field funct3Field opcodeField
  simp only [BitVec.getLsbD_append, BitVec.getLsbD_extractLsb']
  interval_cases i <;> simp

theorem packB_fields (w : Word) : packB (immBField w) (rs2Field w) (rs1Field w) (funct3Field w) (opcodeField w) = w := by
  apply BitVec.eq_of_getLsbD_eq
  intro i hi
  unfold packB immBField rs2Field rs1Field funct3Field opcodeField
  simp only [BitVec.getLsbD_append, BitVec.getLsbD_extractLsb']
  interval_cases i <;> simp

theorem packU_fields (w : Word) : packU (immUField w) (rdField w) (opcodeField w) = w := by
  apply BitVec.eq_of_getLsbD_eq
  intro i hi
  unfold packU immUField rdField opcodeField
  simp only [BitVec.getLsbD_append, BitVec.getLsbD_extractLsb']
  interval_cases i <;> simp

theorem packJ_fields (w : Word) : packJ (immJField w) (rdField w) (opcodeField w) = w := by
  apply BitVec.eq_of_getLsbD_eq
  intro i hi
  unfold packJ immJField rdField opcodeField
  simp only [BitVec.getLsbD_append, BitVec.getLsbD_extractLsb']
  interval_cases i <;> simp

/-! ### What a row's mask leaves of a word (R61) -/

theorem packR_masked (funct7 : BitVec 7) (rs2 rs1 : RegIdx) (funct3 : BitVec 3) (rd : RegIdx) (opcode : BitVec 7) :
    packR funct7 rs2 rs1 funct3 rd opcode &&& 0xFE00707F#32 = packR funct7 0 0 funct3 0 opcode := by
  apply BitVec.eq_of_getLsbD_eq
  intro i hi
  rw [BitVec.getLsbD_and]
  unfold packR
  simp only [BitVec.getLsbD_append]
  interval_cases i <;> simp

theorem packI_masked (imm : BitVec 12) (rs1 : RegIdx) (funct3 : BitVec 3) (rd : RegIdx) (opcode : BitVec 7) :
    packI imm rs1 funct3 rd opcode &&& 0x0000707F#32 = packI 0 0 funct3 0 opcode := by
  apply BitVec.eq_of_getLsbD_eq
  intro i hi
  rw [BitVec.getLsbD_and]
  unfold packI
  simp only [BitVec.getLsbD_append]
  interval_cases i <;> simp

theorem packS_masked (imm : BitVec 12) (rs2 rs1 : RegIdx) (funct3 : BitVec 3) (opcode : BitVec 7) :
    packS imm rs2 rs1 funct3 opcode &&& 0x0000707F#32 = packS 0 0 0 funct3 opcode := by
  apply BitVec.eq_of_getLsbD_eq
  intro i hi
  rw [BitVec.getLsbD_and]
  unfold packS
  simp only [BitVec.getLsbD_append, BitVec.getLsbD_extractLsb']
  interval_cases i <;> simp

theorem packB_masked (imm : BitVec 13) (rs2 rs1 : RegIdx) (funct3 : BitVec 3) (opcode : BitVec 7) :
    packB imm rs2 rs1 funct3 opcode &&& 0x0000707F#32 = packB 0 0 0 funct3 opcode := by
  apply BitVec.eq_of_getLsbD_eq
  intro i hi
  rw [BitVec.getLsbD_and]
  unfold packB
  simp only [BitVec.getLsbD_append, BitVec.getLsbD_extractLsb']
  interval_cases i <;> simp

theorem packU_masked (imm : BitVec 20) (rd : RegIdx) (opcode : BitVec 7) :
    packU imm rd opcode &&& 0x0000007F#32 = packU 0 0 opcode := by
  apply BitVec.eq_of_getLsbD_eq
  intro i hi
  rw [BitVec.getLsbD_and]
  unfold packU
  simp only [BitVec.getLsbD_append]
  interval_cases i <;> simp

theorem packJ_masked (imm : BitVec 21) (rd : RegIdx) (opcode : BitVec 7) :
    packJ imm rd opcode &&& 0x0000007F#32 = packJ 0 0 opcode := by
  apply BitVec.eq_of_getLsbD_eq
  intro i hi
  rw [BitVec.getLsbD_and]
  unfold packJ
  simp only [BitVec.getLsbD_append, BitVec.getLsbD_extractLsb']
  interval_cases i <;> simp

/-! ### The fields of FENCE (R53) and the bit the branch and jump immediates do not hold (R56, R58) -/

theorem fenceFields_fm (fm pred succ : BitVec 4) : (fm ++ pred ++ succ : BitVec 12).extractLsb' 8 4 = fm := by
  apply BitVec.eq_of_getLsbD_eq
  intro i hi
  rw [BitVec.getLsbD_extractLsb']
  simp only [BitVec.getLsbD_append]
  interval_cases i <;> simp

theorem fenceFields_pred (fm pred succ : BitVec 4) : (fm ++ pred ++ succ : BitVec 12).extractLsb' 4 4 = pred := by
  apply BitVec.eq_of_getLsbD_eq
  intro i hi
  rw [BitVec.getLsbD_extractLsb']
  simp only [BitVec.getLsbD_append]
  interval_cases i <;> simp

theorem fenceFields_succ (fm pred succ : BitVec 4) : (fm ++ pred ++ succ : BitVec 12).extractLsb' 0 4 = succ := by
  apply BitVec.eq_of_getLsbD_eq
  intro i hi
  rw [BitVec.getLsbD_extractLsb']
  simp only [BitVec.getLsbD_append]
  interval_cases i <;> simp

/-- The three fields of FENCE are together the field `inst[31:20]`. -/
theorem fenceFields_eq_immIField (w : Word) : fmField w ++ predField w ++ succField w = immIField w := by
  unfold fmField predField succField immIField
  apply BitVec.eq_of_getLsbD_eq; intro i hi
  simp only [BitVec.getLsbD_append, BitVec.getLsbD_extractLsb']; interval_cases i <;> simp

/-- A decoded branch offset is even. -/
theorem immBField_even (w : Word) : (immBField w).getLsbD 0 = false := by
  unfold immBField
  simp only [BitVec.getLsbD_append]
  simp

/-- A decoded JAL offset is even. -/
theorem immJField_even (w : Word) : (immJField w).getLsbD 0 = false := by
  unfold immJField
  simp only [BitVec.getLsbD_append]
  simp

/-! ### Bytes (R30) -/

/-- A word's bytes in memory order make the word. -/
@[simp] theorem leWord_wordByte (v : Word) : leWord (wordByte v 0) (wordByte v 1) (wordByte v 2) (wordByte v 3) = v := by
  apply BitVec.eq_of_getLsbD_eq
  intro i hi
  unfold leWord wordByte
  simp only [BitVec.getLsbD_append, BitVec.getLsbD_extractLsb']
  interval_cases i <;> simp

end Sys2Proof
end

