-- ==== Sys2Proof/Laws/PerInstr.lean ====
section
/-! SUPPORT. A family of laws with one lemma per instruction: every encoding, well-formed or not, fits its own row's mask
and match (R61). -/

namespace Sys2Proof.Laws

/-- The word of an instruction matches the row of R61 that bears its mnemonic. -/
def EncodingMatchesRow.Statement (i : Instr) : Prop := i.row.matchesWord (encode i) = true

/-- What the mask leaves of the encoding is the row's pattern. -/
theorem EncodingMatchesRow.of_masked {i : Instr} (h : encode i &&& i.row.mask = i.row.pattern) :
    EncodingMatchesRow.Statement i := decide_eq_true h

theorem EncodingMatchesRow.lui (rd : RegIdx) (imm : BitVec 20) : EncodingMatchesRow.Statement (.lui rd imm) :=
  EncodingMatchesRow.of_masked (packU_masked ..)

theorem EncodingMatchesRow.auipc (rd : RegIdx) (imm : BitVec 20) : EncodingMatchesRow.Statement (.auipc rd imm) :=
  EncodingMatchesRow.of_masked (packU_masked ..)

theorem EncodingMatchesRow.jal (rd : RegIdx) (offset : BitVec 21) : EncodingMatchesRow.Statement (.jal rd offset) :=
  EncodingMatchesRow.of_masked (packJ_masked ..)

theorem EncodingMatchesRow.jalr (rd rs1 : RegIdx) (imm : BitVec 12) : EncodingMatchesRow.Statement (.jalr rd rs1 imm) :=
  EncodingMatchesRow.of_masked (packI_masked ..)

theorem EncodingMatchesRow.beq (rs1 rs2 : RegIdx) (offset : BitVec 13) : EncodingMatchesRow.Statement (.beq rs1 rs2 offset) :=
  EncodingMatchesRow.of_masked (packB_masked ..)

theorem EncodingMatchesRow.bne (rs1 rs2 : RegIdx) (offset : BitVec 13) : EncodingMatchesRow.Statement (.bne rs1 rs2 offset) :=
  EncodingMatchesRow.of_masked (packB_masked ..)

theorem EncodingMatchesRow.blt (rs1 rs2 : RegIdx) (offset : BitVec 13) : EncodingMatchesRow.Statement (.blt rs1 rs2 offset) :=
  EncodingMatchesRow.of_masked (packB_masked ..)

theorem EncodingMatchesRow.bge (rs1 rs2 : RegIdx) (offset : BitVec 13) : EncodingMatchesRow.Statement (.bge rs1 rs2 offset) :=
  EncodingMatchesRow.of_masked (packB_masked ..)

theorem EncodingMatchesRow.bltu (rs1 rs2 : RegIdx) (offset : BitVec 13) : EncodingMatchesRow.Statement (.bltu rs1 rs2 offset) :=
  EncodingMatchesRow.of_masked (packB_masked ..)

theorem EncodingMatchesRow.bgeu (rs1 rs2 : RegIdx) (offset : BitVec 13) : EncodingMatchesRow.Statement (.bgeu rs1 rs2 offset) :=
  EncodingMatchesRow.of_masked (packB_masked ..)

theorem EncodingMatchesRow.lb (rd rs1 : RegIdx) (imm : BitVec 12) : EncodingMatchesRow.Statement (.lb rd rs1 imm) :=
  EncodingMatchesRow.of_masked (packI_masked ..)

theorem EncodingMatchesRow.lh (rd rs1 : RegIdx) (imm : BitVec 12) : EncodingMatchesRow.Statement (.lh rd rs1 imm) :=
  EncodingMatchesRow.of_masked (packI_masked ..)

theorem EncodingMatchesRow.lw (rd rs1 : RegIdx) (imm : BitVec 12) : EncodingMatchesRow.Statement (.lw rd rs1 imm) :=
  EncodingMatchesRow.of_masked (packI_masked ..)

theorem EncodingMatchesRow.lbu (rd rs1 : RegIdx) (imm : BitVec 12) : EncodingMatchesRow.Statement (.lbu rd rs1 imm) :=
  EncodingMatchesRow.of_masked (packI_masked ..)

theorem EncodingMatchesRow.lhu (rd rs1 : RegIdx) (imm : BitVec 12) : EncodingMatchesRow.Statement (.lhu rd rs1 imm) :=
  EncodingMatchesRow.of_masked (packI_masked ..)

theorem EncodingMatchesRow.sb (rs2 rs1 : RegIdx) (imm : BitVec 12) : EncodingMatchesRow.Statement (.sb rs2 rs1 imm) :=
  EncodingMatchesRow.of_masked (packS_masked ..)

theorem EncodingMatchesRow.sh (rs2 rs1 : RegIdx) (imm : BitVec 12) : EncodingMatchesRow.Statement (.sh rs2 rs1 imm) :=
  EncodingMatchesRow.of_masked (packS_masked ..)

theorem EncodingMatchesRow.sw (rs2 rs1 : RegIdx) (imm : BitVec 12) : EncodingMatchesRow.Statement (.sw rs2 rs1 imm) :=
  EncodingMatchesRow.of_masked (packS_masked ..)

theorem EncodingMatchesRow.addi (rd rs1 : RegIdx) (imm : BitVec 12) : EncodingMatchesRow.Statement (.addi rd rs1 imm) :=
  EncodingMatchesRow.of_masked (packI_masked ..)

theorem EncodingMatchesRow.slti (rd rs1 : RegIdx) (imm : BitVec 12) : EncodingMatchesRow.Statement (.slti rd rs1 imm) :=
  EncodingMatchesRow.of_masked (packI_masked ..)

theorem EncodingMatchesRow.sltiu (rd rs1 : RegIdx) (imm : BitVec 12) : EncodingMatchesRow.Statement (.sltiu rd rs1 imm) :=
  EncodingMatchesRow.of_masked (packI_masked ..)

theorem EncodingMatchesRow.xori (rd rs1 : RegIdx) (imm : BitVec 12) : EncodingMatchesRow.Statement (.xori rd rs1 imm) :=
  EncodingMatchesRow.of_masked (packI_masked ..)

theorem EncodingMatchesRow.ori (rd rs1 : RegIdx) (imm : BitVec 12) : EncodingMatchesRow.Statement (.ori rd rs1 imm) :=
  EncodingMatchesRow.of_masked (packI_masked ..)

theorem EncodingMatchesRow.andi (rd rs1 : RegIdx) (imm : BitVec 12) : EncodingMatchesRow.Statement (.andi rd rs1 imm) :=
  EncodingMatchesRow.of_masked (packI_masked ..)

theorem EncodingMatchesRow.slli (rd rs1 : RegIdx) (shamt : BitVec 5) : EncodingMatchesRow.Statement (.slli rd rs1 shamt) :=
  EncodingMatchesRow.of_masked (packR_masked ..)

theorem EncodingMatchesRow.srli (rd rs1 : RegIdx) (shamt : BitVec 5) : EncodingMatchesRow.Statement (.srli rd rs1 shamt) :=
  EncodingMatchesRow.of_masked (packR_masked ..)

theorem EncodingMatchesRow.srai (rd rs1 : RegIdx) (shamt : BitVec 5) : EncodingMatchesRow.Statement (.srai rd rs1 shamt) :=
  EncodingMatchesRow.of_masked (packR_masked ..)

theorem EncodingMatchesRow.add (rd rs1 rs2 : RegIdx) : EncodingMatchesRow.Statement (.add rd rs1 rs2) :=
  EncodingMatchesRow.of_masked (packR_masked ..)

theorem EncodingMatchesRow.sub (rd rs1 rs2 : RegIdx) : EncodingMatchesRow.Statement (.sub rd rs1 rs2) :=
  EncodingMatchesRow.of_masked (packR_masked ..)

theorem EncodingMatchesRow.sll (rd rs1 rs2 : RegIdx) : EncodingMatchesRow.Statement (.sll rd rs1 rs2) :=
  EncodingMatchesRow.of_masked (packR_masked ..)

theorem EncodingMatchesRow.slt (rd rs1 rs2 : RegIdx) : EncodingMatchesRow.Statement (.slt rd rs1 rs2) :=
  EncodingMatchesRow.of_masked (packR_masked ..)

theorem EncodingMatchesRow.sltu (rd rs1 rs2 : RegIdx) : EncodingMatchesRow.Statement (.sltu rd rs1 rs2) :=
  EncodingMatchesRow.of_masked (packR_masked ..)

theorem EncodingMatchesRow.xor (rd rs1 rs2 : RegIdx) : EncodingMatchesRow.Statement (.xor rd rs1 rs2) :=
  EncodingMatchesRow.of_masked (packR_masked ..)

theorem EncodingMatchesRow.srl (rd rs1 rs2 : RegIdx) : EncodingMatchesRow.Statement (.srl rd rs1 rs2) :=
  EncodingMatchesRow.of_masked (packR_masked ..)

theorem EncodingMatchesRow.sra (rd rs1 rs2 : RegIdx) : EncodingMatchesRow.Statement (.sra rd rs1 rs2) :=
  EncodingMatchesRow.of_masked (packR_masked ..)

theorem EncodingMatchesRow.or (rd rs1 rs2 : RegIdx) : EncodingMatchesRow.Statement (.or rd rs1 rs2) :=
  EncodingMatchesRow.of_masked (packR_masked ..)

theorem EncodingMatchesRow.and (rd rs1 rs2 : RegIdx) : EncodingMatchesRow.Statement (.and rd rs1 rs2) :=
  EncodingMatchesRow.of_masked (packR_masked ..)

theorem EncodingMatchesRow.fence (fm pred succ : BitVec 4) (rs1 rd : RegIdx) : EncodingMatchesRow.Statement (.fence fm pred succ rs1 rd) :=
  EncodingMatchesRow.of_masked (packI_masked ..)

theorem EncodingMatchesRow.fenceI (imm : BitVec 12) (rs1 rd : RegIdx) : EncodingMatchesRow.Statement (.fenceI imm rs1 rd) :=
  EncodingMatchesRow.of_masked (packI_masked ..)

theorem EncodingMatchesRow.ecall : EncodingMatchesRow.Statement .ecall :=
  EncodingMatchesRow.of_masked rfl

theorem EncodingMatchesRow.ebreak : EncodingMatchesRow.Statement .ebreak :=
  EncodingMatchesRow.of_masked rfl

theorem EncodingMatchesRow.csrrw (rd : RegIdx) (csr : CsrAddr) (rs1 : RegIdx) : EncodingMatchesRow.Statement (.csrrw rd csr rs1) :=
  EncodingMatchesRow.of_masked (packI_masked ..)

theorem EncodingMatchesRow.csrrs (rd : RegIdx) (csr : CsrAddr) (rs1 : RegIdx) : EncodingMatchesRow.Statement (.csrrs rd csr rs1) :=
  EncodingMatchesRow.of_masked (packI_masked ..)

theorem EncodingMatchesRow.csrrc (rd : RegIdx) (csr : CsrAddr) (rs1 : RegIdx) : EncodingMatchesRow.Statement (.csrrc rd csr rs1) :=
  EncodingMatchesRow.of_masked (packI_masked ..)

theorem EncodingMatchesRow.csrrwi (rd : RegIdx) (csr : CsrAddr) (uimm : BitVec 5) : EncodingMatchesRow.Statement (.csrrwi rd csr uimm) :=
  EncodingMatchesRow.of_masked (packI_masked ..)

theorem EncodingMatchesRow.csrrsi (rd : RegIdx) (csr : CsrAddr) (uimm : BitVec 5) : EncodingMatchesRow.Statement (.csrrsi rd csr uimm) :=
  EncodingMatchesRow.of_masked (packI_masked ..)

theorem EncodingMatchesRow.csrrci (rd : RegIdx) (csr : CsrAddr) (uimm : BitVec 5) : EncodingMatchesRow.Statement (.csrrci rd csr uimm) :=
  EncodingMatchesRow.of_masked (packI_masked ..)

end Sys2Proof.Laws
end

