-- ==== Sys2Proof/Tests/Slice0.lean ====
section
/-! SUPPORT. Tests of the model. The expected values are those of 95_test_vectors.md (its section is named at each group)
or are written out from an encoding template of 30_encoding.md; none is the model's own answer. Then, for every
obligation that has hypotheses, a witness that they can be met, at the boundary values of each clause. -/

namespace Sys2Proof.Tests

open Sys2Proof.Machine

/-! ### WellFormed smoke: an ill-formed term for each check -/

theorem test_odd_jal_is_refused : (Instr.jal 1 0x00001#21).wellFormed = false := by decide
theorem test_odd_beq_is_refused : (Instr.beq 1 2 0x0003#13).wellFormed = false := by decide
theorem test_odd_bne_is_refused : (Instr.bne 1 2 0x0003#13).wellFormed = false := by decide
theorem test_odd_blt_is_refused : (Instr.blt 1 2 0x0003#13).wellFormed = false := by decide
theorem test_odd_bge_is_refused : (Instr.bge 1 2 0x0003#13).wellFormed = false := by decide
theorem test_odd_bltu_is_refused : (Instr.bltu 1 2 0x0003#13).wellFormed = false := by decide
theorem test_odd_bgeu_is_refused : (Instr.bgeu 1 2 0x1FFF#13).wellFormed = false := by decide

/-! ### Decoding: the words of 95_test_vectors.md sections 1.1, 1.2, 2.1 to 2.9, every constructor -/

/-- The word decodes to the instruction. -/
def reads (p : Word × Instr) : Bool := decide (decode p.1 = .ok p.2)

theorem test_decode_upper_and_jumps :
    [(0x123452B7#32, Instr.lui 5 0x12345#20), (0x80000297#32, .auipc 5 0x80000#20), (0xFFDFF0EF#32, .jal 1 0x1FFFFC#21),
      (0x800000EF#32, .jal 1 0x100000#21), (0x800280E7#32, .jalr 1 5 0x800#12)].all reads = true := by decide

theorem test_decode_branches :
    [(0x7E000FE3#32, Instr.beq 0 0 4094#13), (0x000000E3#32, .beq 0 0 2048#13), (0xFE209CE3#32, .bne 1 2 0x1FF8#13),
      (0xFE62CCE3#32, .blt 5 6 0x1FF8#13), (0x00534463#32, .blt 6 5 8#13), (0x0020D463#32, .bge 1 2 8#13),
      (0x0020E463#32, .bltu 1 2 8#13), (0x00537463#32, .bgeu 6 5 8#13)].all reads = true := by decide

theorem test_decode_loads :
    [(0x00230283#32, Instr.lb 5 6 2#12), (0x00131283#32, .lh 5 6 1#12), (0x80032283#32, .lw 5 6 0x800#12),
      (0x00334283#32, .lbu 5 6 3#12), (0x00335283#32, .lhu 5 6 3#12)].all reads = true := by decide

theorem test_decode_stores :
    [(0x005301A3#32, Instr.sb 5 6 3#12), (0x00531123#32, .sh 5 6 2#12), (0x80532023#32, .sw 5 6 0x800#12),
      (0x7E532FA3#32, .sw 5 6 0x7FF#12), (0xFE532E23#32, .sw 5 6 0xFFC#12)].all reads = true := by decide

theorem test_decode_immediates :
    [(0xFFF00093#32, Instr.addi 1 0 0xFFF#12), (0x80012093#32, .slti 1 2 0x800#12), (0x80013093#32, .sltiu 1 2 0x800#12),
      (0xFFF34293#32, .xori 5 6 0xFFF#12), (0x80016093#32, .ori 1 2 0x800#12), (0xFF017093#32, .andi 1 2 0xFF0#12),
      (0x01F11093#32, .slli 1 2 31#5), (0x00415093#32, .srli 1 2 4#5), (0x41F15093#32, .srai 1 2 31#5)].all reads = true := by
  decide

theorem test_decode_registers :
    [(0x002081B3#32, Instr.add 3 1 2), (0x406002B3#32, .sub 5 0 6), (0x002091B3#32, .sll 3 1 2), (0x000322B3#32, .slt 5 6 0),
      (0x006032B3#32, .sltu 5 0 6), (0x0020C1B3#32, .xor 3 1 2), (0x0020D1B3#32, .srl 3 1 2), (0x4020D1B3#32, .sra 3 1 2),
      (0x0020E1B3#32, .or 3 1 2), (0x0020F1B3#32, .and 3 1 2)].all reads = true := by decide

theorem test_decode_fences_and_system :
    [(0x0FF3028F#32, Instr.fence 0 15 15 6 5), (0x8330000F#32, .fence 8 3 3 0 0), (0x0100000F#32, .fence 0 1 0 0 0),
      (0xABC3128F#32, .fenceI 0xABC#12 6 5), (0x00000073#32, .ecall), (0x00100073#32, .ebreak)].all reads = true := by decide

theorem test_decode_csr :
    [(0xC0031073#32, Instr.csrrw 0 0xC00#12 6), (0xC00322F3#32, .csrrs 5 0xC00#12 6), (0xC01032F3#32, .csrrc 5 0xC01#12 0),
      (0xC00052F3#32, .csrrwi 5 0xC00#12 0), (0xC000E2F3#32, .csrrsi 5 0xC00#12 1),
      (0xC00FF2F3#32, .csrrci 5 0xC00#12 31)].all reads = true := by decide

/-- The word is refused, for that reason. -/
def refuses (p : Word × IllegalClass) : Bool := decide (decode p.1 = .error p.2)

/-- 95_test_vectors.md section 2.10, by the classes of R67. -/
theorem test_decode_illegal_words :
    [(0x00000000#32, IllegalClass.lowBits), (0x00004501#32, .lowBits), (0xFFFFFFFF#32, .opcode), (0x0000002F#32, .opcode),
      (0x02000033#32, .regFunct7), (0x40001033#32, .regFunct7), (0x20000033#32, .regFunct7), (0x02001013#32, .shiftImm),
      (0x42005093#32, .shiftImm), (0x40001013#32, .shiftImm), (0x00001067#32, .jalrFunct3), (0x00002063#32, .branchFunct3),
      (0x00003063#32, .branchFunct3), (0x00003003#32, .loadFunct3), (0x00007003#32, .loadFunct3), (0x00003023#32, .storeFunct3),
      (0x00004023#32, .storeFunct3), (0x0000200F#32, .fenceFunct3), (0x00004073#32, .system), (0x000000F3#32, .system),
      (0x00008073#32, .system), (0x30200073#32, .system), (0x12000073#32, .system)].all refuses = true := by decide

/-- R30: `sw`'s word 0x00712423 (R73) as four bytes, lowest first, with one byte after it. -/
theorem test_decode_bytes :
    decodeBytes [0x23#8, 0x24#8, 0x71#8, 0x00#8, 0xAA#8] = .ok (.sw 7 2 8#12, [0xAA#8]) := by decide
theorem test_decode_too_few_bytes : decodeBytes [0x13#8, 0x00#8, 0x00#8] = .error .truncated := by decide

/-! ### One step of each instruction, from pc 0x00001000 -/

/-- Reset, with these registers set. -/
def start (rs : List (RegIdx × Word)) : State := rs.foldl (fun s p => s.setReg p.1 p.2) State.reset

/-- The memory of section 2.3: bytes 80 FF 7F 01 EF BE AD DE from 0x2000 up. -/
def data (rs : List (RegIdx × Word)) : State :=
  { start rs with mem := [(0x2000, 0x80#8), (0x2001, 0xFF#8), (0x2002, 0x7F#8), (0x2003, 0x01#8), (0x2004, 0xEF#8),
      (0x2005, 0xBE#8), (0x2006, 0xAD#8), (0x2007, 0xDE#8)] }

/-- The map of section 2.3, with a device of 16 bytes at 0x4000 (R37). -/
def smallMap : Config.MemMap :=
  [⟨0x1000, 0x1000, .main true true true⟩, ⟨0x2000, 0x1000, .main true true false⟩, ⟨0x4000, 0x10, .io true true⟩]

/-- `data` under the map of section 2.3. -/
def small (rs : List (RegIdx × Word)) : State := { data rs with map := smallMap }

/-- The state after one step that fetches the word at the state's pc. -/
def after (w : Word) (s : State) : Option State :=
  match step (s.withFetchWord 32 w.toNat) with
  | .next t => some t
  | _ => none

/-- A register and the pc after the step, where no trap is recorded. -/
def gives (w : Word) (s : State) (r : RegIdx) : Option (Word × Word) :=
  (after w s).bind fun t => if t.trap = none then some (t.reg r, t.pc) else none

/-- The trap recorded by the step. -/
def traps (w : Word) (s : State) : Option Trap := (after w s).bind State.trap

/-- The bytes from `a` up to `a + n - 1` after the step, and `dirty`. -/
def bytesAfter (w : Word) (s : State) (a : Word) (n : Nat) : Option (List Byte × List Nat) :=
  (after w s).map fun t => ((List.range n).map fun k => t.byteAt (byteAddr a k), t.dirty)

/-! #### Section 2.1 -/

theorem test_add_signed_overflow_wraps : gives 0x002081B3#32 (start [(1, 0x7FFFFFFF#32), (2, 1#32)]) 3 = some (0x80000000#32, 0x1004#32) := by decide
theorem test_add_discards_x0 : gives 0x00208033#32 (start [(1, 5#32), (2, 6#32)]) 0 = some (0#32, 0x1004#32) := by decide
theorem test_sub_borrow_wraps : gives 0x402081B3#32 (start [(2, 1#32)]) 3 = some (0xFFFFFFFF#32, 0x1004#32) := by decide
theorem test_sll_low_five_bits : gives 0x002091B3#32 (start [(1, 0xFFFFFFFF#32), (2, 0xFFFFFFE4#32)]) 3 = some (0xFFFFFFF0#32, 0x1004#32) := by decide
theorem test_slt_signed : gives 0x0020A1B3#32 (start [(1, 0x80000000#32), (2, 0x7FFFFFFF#32)]) 3 = some (1#32, 0x1004#32) := by decide
theorem test_sltu_unsigned : gives 0x0020B1B3#32 (start [(1, 0x80000000#32), (2, 0x7FFFFFFF#32)]) 3 = some (0#32, 0x1004#32) := by decide
theorem test_xor : gives 0x0020C1B3#32 (start [(1, 0xFF00FF00#32), (2, 0x0FF00FF0#32)]) 3 = some (0xF0F0F0F0#32, 0x1004#32) := by decide
theorem test_srl_zero_fill : gives 0x0020D1B3#32 (start [(1, 0x80000000#32), (2, 0x3F#32)]) 3 = some (1#32, 0x1004#32) := by decide
theorem test_srl_by_32_is_by_0 : gives 0x0020D1B3#32 (start [(1, 0x80000000#32), (2, 0x20#32)]) 3 = some (0x80000000#32, 0x1004#32) := by decide
theorem test_sra_sign_fill : gives 0x4020D1B3#32 (start [(1, 0x80000000#32), (2, 4#32)]) 3 = some (0xF8000000#32, 0x1004#32) := by decide
theorem test_sra_positive : gives 0x4020D1B3#32 (start [(1, 0x7FFFFFFF#32), (2, 4#32)]) 3 = some (0x07FFFFFF#32, 0x1004#32) := by decide
theorem test_or : gives 0x0020E1B3#32 (start [(1, 0xFF00FF00#32), (2, 0x0FF00FF0#32)]) 3 = some (0xFFF0FFF0#32, 0x1004#32) := by decide
theorem test_and : gives 0x0020F1B3#32 (start [(1, 0xFF00FF00#32), (2, 0x0FF00FF0#32)]) 3 = some (0x0F000F00#32, 0x1004#32) := by decide

/-! #### Section 2.2 -/

theorem test_addi_largest : gives 0x7FF08093#32 (start [(1, 0x7FFFF801#32)]) 1 = some (0x80000000#32, 0x1004#32) := by decide
theorem test_addi_smallest : gives 0x80010093#32 (start []) 1 = some (0xFFFFF800#32, 0x1004#32) := by decide
theorem test_slti_signed : gives 0xFFF12093#32 (start [(2, 0xFFFFFFFE#32)]) 1 = some (1#32, 0x1004#32) := by decide
theorem test_sltiu_sign_extends_then_unsigned : gives 0x80013093#32 (start [(2, 0xFFFFF7FF#32)]) 1 = some (1#32, 0x1004#32) := by decide
theorem test_sltiu_equal : gives 0xFFF13093#32 (start [(2, 0xFFFFFFFF#32)]) 1 = some (0#32, 0x1004#32) := by decide
theorem test_xori_not : gives 0xFFF14093#32 (start [(2, 0x12345678#32)]) 1 = some (0xEDCBA987#32, 0x1004#32) := by decide
theorem test_ori : gives 0x80016093#32 (start [(2, 0xFF#32)]) 1 = some (0xFFFFF8FF#32, 0x1004#32) := by decide
theorem test_andi : gives 0xFF017093#32 (start [(2, 0x12345678#32)]) 1 = some (0x12345670#32, 0x1004#32) := by decide
theorem test_slli_31 : gives 0x01F11093#32 (start [(2, 0x80000001#32)]) 1 = some (0x80000000#32, 0x1004#32) := by decide
theorem test_srli_31 : gives 0x01F15093#32 (start [(2, 0x80000001#32)]) 1 = some (1#32, 0x1004#32) := by decide
theorem test_srai_4 : gives 0x40415093#32 (start [(2, 0x80000001#32)]) 1 = some (0xF8000000#32, 0x1004#32) := by decide

/-! #### Section 2.3 -/

theorem test_lb_sign : gives 0x00030283#32 (data [(6, 0x2000#32)]) 5 = some (0xFFFFFF80#32, 0x1004#32) := by decide
theorem test_lb_absent : traps 0xFFF00283#32 (small []) = some ⟨.loadAccessFault, 0xFFFFFFFF#32, 0x1000#32⟩ := by decide
theorem test_lbu_zero : gives 0x00034283#32 (data [(6, 0x2000#32)]) 5 = some (0x80#32, 0x1004#32) := by decide
theorem test_lh_sign : gives 0x00031283#32 (data [(6, 0x2000#32)]) 5 = some (0xFFFFFF80#32, 0x1004#32) := by decide
theorem test_lh_misaligned : traps 0x00131283#32 (data [(6, 0x2000#32)]) = some ⟨.loadAddressMisaligned, 0x2001#32, 0x1000#32⟩ := by decide
theorem test_lhu_zero : gives 0x00035283#32 (data [(6, 0x2000#32)]) 5 = some (0xFF80#32, 0x1004#32) := by decide
theorem test_lhu_misaligned : traps 0x00335283#32 (data [(6, 0x2000#32)]) = some ⟨.loadAddressMisaligned, 0x2003#32, 0x1000#32⟩ := by decide
theorem test_lw_largest_offset : gives 0x7FF32283#32 (data [(6, 0x1805#32)]) 5 = some (0xDEADBEEF#32, 0x1004#32) := by decide
theorem test_lw_misaligned_before_absent : traps 0x00032283#32 (small [(6, 0x3001#32)]) = some ⟨.loadAddressMisaligned, 0x3001#32, 0x1000#32⟩ := by decide

/-! #### Section 2.4 -/

theorem test_sb_low_byte : bytesAfter 0x005301A3#32 (data [(5, 0x12345678#32), (6, 0x2000#32)]) 0x2000#32 8 =
    some ([0x80#8, 0xFF#8, 0x7F#8, 0x78#8, 0xEF#8, 0xBE#8, 0xAD#8, 0xDE#8], [0x2003]) := by decide
theorem test_sh_little_endian : bytesAfter 0x00531123#32 (data [(5, 0x12345678#32), (6, 0x2000#32)]) 0x2000#32 8 =
    some ([0x80#8, 0xFF#8, 0x78#8, 0x56#8, 0xEF#8, 0xBE#8, 0xAD#8, 0xDE#8], [0x2002, 0x2003]) := by decide
theorem test_sh_misaligned_before_forbidden : traps 0x00531023#32 (small [(6, 0x2FFF#32)]) = some ⟨.storeAddressMisaligned, 0x2FFF#32, 0x1000#32⟩ := by decide
theorem test_sw_smallest_offset : bytesAfter 0x80532023#32 (data [(5, 0x12345678#32), (6, 0x2800#32)]) 0x2000#32 8 =
    some ([0x78#8, 0x56#8, 0x34#8, 0x12#8, 0xEF#8, 0xBE#8, 0xAD#8, 0xDE#8], [0x2000, 0x2001, 0x2002, 0x2003]) := by decide
theorem test_sw_absent : traps 0x00532023#32 (small [(6, 0x3000#32)]) = some ⟨.storeAccessFault, 0x3000#32, 0x1000#32⟩ := by decide

/-! #### Sections 2.5 and 2.6 -/

theorem test_beq_taken : gives 0x00208863#32 (start [(1, 5#32), (2, 5#32)]) 1 = some (5#32, 0x1010#32) := by decide
theorem test_beq_to_misaligned : traps 0x7E000FE3#32 (start []) = some ⟨.instructionAddressMisaligned, 0x1FFE#32, 0x1000#32⟩ := by decide
theorem test_bne_backward : gives 0xFE209CE3#32 (start [(1, 5#32), (2, 6#32)]) 1 = some (5#32, 0x0FF8#32) := by decide
theorem test_bne_not_taken_to_misaligned : gives 0x00001163#32 (start []) 0 = some (0#32, 0x1004#32) := by decide
theorem test_blt_signed : gives 0x0020C463#32 (start [(1, 0x80000000#32), (2, 0x7FFFFFFF#32)]) 2 = some (0x7FFFFFFF#32, 0x1008#32) := by decide
theorem test_bge_signed : gives 0x0020D463#32 (start [(1, 0x80000000#32), (2, 0x7FFFFFFF#32)]) 2 = some (0x7FFFFFFF#32, 0x1004#32) := by decide
theorem test_bge_equal : gives 0x0020D463#32 (start [(1, 5#32), (2, 5#32)]) 2 = some (5#32, 0x1008#32) := by decide
theorem test_bltu_unsigned : gives 0x0020E463#32 (start [(1, 0x80000000#32), (2, 0x7FFFFFFF#32)]) 2 = some (0x7FFFFFFF#32, 0x1004#32) := by decide
theorem test_bgeu_unsigned : gives 0x0020F463#32 (start [(1, 0x80000000#32), (2, 0x7FFFFFFF#32)]) 2 = some (0x7FFFFFFF#32, 0x1008#32) := by decide
theorem test_jal_backward : gives 0xFFDFF0EF#32 (start []) 1 = some (0x1004#32, 0x0FFC#32) := by decide
theorem test_jal_misaligned_writes_no_link :
    (after 0x002000EF#32 (start [(1, 0x55#32)])).map (fun t => (t.reg 1, t.pc, t.trap)) =
      some (0x55#32, 0x1000#32, some ⟨.instructionAddressMisaligned, 0x1002#32, 0x1000#32⟩) := by decide
theorem test_jalr_old_value : gives 0x004282E7#32 (start [(5, 0x2000#32)]) 5 = some (0x1004#32, 0x2004#32) := by decide
theorem test_jalr_bit0_cleared_bit1_set : traps 0x003280E7#32 (start [(5, 0x2000#32)]) = some ⟨.instructionAddressMisaligned, 0x2002#32, 0x1000#32⟩ := by decide

/-! #### Section 2.7 -/

theorem test_lui : gives 0xFFFFF2B7#32 (start []) 5 = some (0xFFFFF000#32, 0x1004#32) := by decide
theorem test_auipc_wraps : gives 0xFFFFF297#32 (start []) 5 = some (0#32, 0x1004#32) := by decide
theorem test_auipc_reads_pc : gives 0x00001297#32 (start []) 5 = some (0x2000#32, 0x1004#32) := by decide

/-! #### Section 2.8: a counter read is the free value of the first draw; every other form traps -/

theorem test_csrrs_reads_cycle : gives 0xC00022F3#32 (start [(5, 0x55#32)]) 5 = some (Config.counterRead 0 0xC00#12, 0x1004#32) := by rfl
theorem test_csrrs_x6_of_zero_is_a_write : traps 0xC00322F3#32 (start [(5, 0x55#32)]) = some ⟨.illegalInstruction, 0xC00322F3#32, 0x1000#32⟩ := by decide
theorem test_csrrc_reads_time : gives 0xC01032F3#32 (start [(5, 0x55#32)]) 5 = some (Config.counterRead 0 0xC01#12, 0x1004#32) := by rfl
theorem test_csrrc_x6_of_zero_is_a_write : traps 0xC00332F3#32 (start [(5, 0x55#32)]) = some ⟨.illegalInstruction, 0xC00332F3#32, 0x1000#32⟩ := by decide
theorem test_csrrsi_reads_instreth : gives 0xC82062F3#32 (start [(5, 0x55#32)]) 5 = some (Config.counterRead 0 0xC82#12, 0x1004#32) := by rfl
theorem test_csrrsi_writes : traps 0xC000E2F3#32 (start []) = some ⟨.illegalInstruction, 0xC000E2F3#32, 0x1000#32⟩ := by decide
theorem test_csrrci_reads_timeh : gives 0xC81072F3#32 (start [(5, 0x55#32)]) 5 = some (Config.counterRead 0 0xC81#12, 0x1004#32) := by rfl
theorem test_csrrci_writes : traps 0xC00FF2F3#32 (start []) = some ⟨.illegalInstruction, 0xC00FF2F3#32, 0x1000#32⟩ := by decide
theorem test_csrrw_always_writes : traps 0xC00012F3#32 (start []) = some ⟨.illegalInstruction, 0xC00012F3#32, 0x1000#32⟩ := by decide
theorem test_csrrw_absent : traps 0x34031073#32 (start [(6, 1#32)]) = some ⟨.illegalInstruction, 0x34031073#32, 0x1000#32⟩ := by decide
theorem test_csrrwi_always_writes : traps 0xC00052F3#32 (start []) = some ⟨.illegalInstruction, 0xC00052F3#32, 0x1000#32⟩ := by decide
theorem test_csrrs_next_after_instret_is_absent : traps 0xC03022F3#32 (start []) = some ⟨.illegalInstruction, 0xC03022F3#32, 0x1000#32⟩ := by decide

/-! #### Sections 2.9 to 2.11 -/

theorem test_ecall : traps 0x00000073#32 (start []) = some ⟨.environmentCall, 0#32, 0x1000#32⟩ := by decide
theorem test_ebreak : traps 0x00100073#32 (start []) = some ⟨.breakpoint, 0#32, 0x1000#32⟩ := by decide
theorem test_fence_keeps_dirty_and_rd :
    (after 0x0FF3028F#32 { start [] with dirty := [0x2000] }).map (fun t => (t.reg 5, t.pc, t.dirty)) =
      some (0#32, 0x1004#32, [0x2000]) := by decide
theorem test_fence_i_empties_dirty :
    (after 0xABC3128F#32 { start [] with dirty := [0x2000] }).map (fun t => (t.reg 5, t.pc, t.dirty)) =
      some (0#32, 0x1004#32, []) := by decide
theorem test_word_of_zeros : traps 0x00000000#32 (start []) = some ⟨.illegalInstruction, 0#32, 0x1000#32⟩ := by decide

/-- The state at another pc. -/
def at' (p : Word) (s : State) : State := { s with pc := p }

/-- The trap of one step, nothing placed. -/
def fetchTrap (s : State) : Option Trap :=
  match step s with
  | .next t => t.trap
  | _ => none

theorem test_fetch_misaligned : fetchTrap (at' 0x1002#32 (start [])) =
    some ⟨.instructionAddressMisaligned, 0x1002#32, 0x1002#32⟩ := by decide
theorem test_fetch_not_executable : fetchTrap (at' 0x2000#32 (small [])) =
    some ⟨.instructionAccessFault, 0x2000#32, 0x2000#32⟩ := by decide
theorem test_fetch_stale : step { start [] with dirty := [0x1003] } = .refused (.staleFetch 0x1000#32) := by rfl

/-- R37: a device read draws one answer and makes one access; a device write is handed over once. -/
theorem test_io_read : (after 0x00032283#32 (small [(6, 0x4000#32)])).map (fun t => (t.reg 5, t.draws, t.io.length)) =
    some (leWord (Config.ioRead 0 0x4000#32 4 0) (Config.ioRead 0 0x4000#32 4 1) (Config.ioRead 0 0x4000#32 4 2)
      (Config.ioRead 0 0x4000#32 4 3), 1, 1) := by rfl
theorem test_io_write : (after 0x00531023#32 (small [(5, 0x12345678#32), (6, 0x400E#32)])).map (fun t => (t.io, t.draws)) =
    some ([.write 0x400E#32 2 0x5678#32], 0) := by decide

/-- R25, R210: reset's pc, registers, dirty set and trap record; log 1 and log 2. -/
theorem test_reset : (State.reset.pc, State.reset.reg 31, State.reset.dirty, State.reset.trap, State.reset.mem) =
    (0x1000#32, 0#32, [], none, []) := by decide
theorem test_reset_memory_is_canonical : State.reset.mem.wf := by decide

/-! ### Witnesses: the hypotheses of each obligation can be met together -/

/-- A state whose next step fetches the word. -/
def holding (w : Word) (s : State) : State := s.withFetchWord 32 w.toNat

theorem witness_DecodeGivesBackWhatWasEncoded : (Instr.bgeu 31 31 0x1FFE#13).wellFormed = true := by decide

theorem witness_EncodeGivesBackWhatWasDecoded : decode 0x7E000FE3#32 = .ok (.beq 0 0 4094#13) := by decide

theorem witness_DecodeFollowsTheMaskMatchTable :
    decode 0x4020D1B3#32 = .ok (.sra 3 1 2) ∧ (Instr.sra 0 0 0).row ∈ opcodeRows ∧
      (Instr.sra 0 0 0).row.matchesWord 0x4020D1B3#32 = true := by decide

theorem witness_TableRowsArePairwiseDisjoint :
    (Instr.ebreak).row ∈ opcodeRows ∧ (Instr.ebreak).row.matchesWord 0x00100073#32 = true := by decide

theorem witness_StepRunsTheDecodedInstruction :
    Fetches (holding 0x002081B3#32 (start [])) 0x002081B3#32 ∧ decode 0x002081B3#32 = .ok (.add 3 1 2) :=
  ⟨⟨rfl, rfl, by decide, by decide, by decide⟩, by decide⟩

theorem witness_UnmatchedWordRaisesIllegalInstruction :
    Fetches (holding 0xFFFFFFFF#32 (start [])) 0xFFFFFFFF#32 ∧ (∀ r ∈ opcodeRows, r.matchesWord 0xFFFFFFFF#32 = false) :=
  ⟨⟨rfl, rfl, by decide, by decide, by decide⟩, by decide⟩

theorem witness_PrivilegedWords_uret : Fetches (holding 0x00200073#32 (start [])) 0x00200073#32 :=
  ⟨rfl, rfl, by decide, by decide, by decide⟩
theorem witness_PrivilegedWords_sret : Fetches (holding 0x10200073#32 (start [])) 0x10200073#32 :=
  ⟨rfl, rfl, by decide, by decide, by decide⟩
theorem witness_PrivilegedWords_mret : Fetches (holding 0x30200073#32 (start [])) 0x30200073#32 :=
  ⟨rfl, rfl, by decide, by decide, by decide⟩
theorem witness_PrivilegedWords_wfi : Fetches (holding 0x10500073#32 (start [])) 0x10500073#32 :=
  ⟨rfl, rfl, by decide, by decide, by decide⟩
theorem witness_PrivilegedWords_sfence_vma :
    Fetches (holding 0x13FF8FF3#32 (start [])) 0x13FF8FF3#32 ∧
      0x13FF8FF3#32 = packR 0b0001001#7 31 31 0b000#3 31 0b1110011#7 :=
  ⟨⟨rfl, rfl, by decide, by decide, by decide⟩, by decide⟩

/-- A misaligned pc at both ends of a word; no execute permission; `dirty` at the first and at the last byte fetched. -/
theorem witness_FetchChecksComeInOrder :
    (at' 0x1001#32 (small [])).trap = none ∧ ¬ pcAligned (at' 0x1001#32 (small [])) ∧
    ¬ pcAligned (at' 0x1003#32 (small [])) ∧ pcAligned (at' 0x2000#32 (small [])) ∧
    permitted smallMap 0x2000#32 4 .execute = false ∧ permitted smallMap 0x1FFC#32 4 .execute = true ∧
    pcAligned (at' 0x1FFC#32 (small [])) ∧
    (∃ k, k < 4 ∧ (0x1FFC#32 + BitVec.ofNat 32 k).toNat ∈ [0x1FFC]) ∧
    (∃ k, k < 4 ∧ (0x1FFC#32 + BitVec.ofNat 32 k).toNat ∈ [0x1FFF]) :=
  ⟨rfl, by unfold pcAligned; decide, by unfold pcAligned; decide, rfl, by decide, by decide, rfl,
    ⟨0, by decide, by decide⟩, ⟨3, by decide, by decide⟩⟩

theorem witness_StepYieldsNextOrStaleFetch : State.reset.trap = none := rfl

theorem witness_RecordedTrapEndsTheRun :
    ((start []).takeTrap ⟨.breakpoint, 0⟩).trap = some ⟨.breakpoint, 0, 0x1000#32⟩ := rfl

theorem witness_PlacedInstructionRunsNext : (data []).mem.wf ∧ (Instr.jal 1 0x1FFFFC#21).wellFormed = true := by decide

/-- A step that traps: TrapsArePrecise, IllegalInstructionRecordsTheFetchedWord. -/
theorem witness_TrapsArePrecise :
    step (holding 0x02000033#32 (start [])) =
      .next ((holding 0x02000033#32 (start [])).takeTrap ⟨.illegalInstruction, 0x02000033#32⟩) := by rfl
theorem witness_IllegalInstructionRecordsTheFetchedWord :
    step (holding 0xC00012F3#32 (start [])) =
      .next ((holding 0xC00012F3#32 (start [])).takeTrap ⟨.illegalInstruction, 0xC00012F3#32⟩) := by rfl

/-- A trap of each instruction group that has one is in the tests above; here a load. -/
theorem witness_InstructionsRaiseOnlyTheirOwnCauses :
    (small [(6, 0x2001#32)]).trap = none ∧
      exec (.lw 5 6 0) (small [(6, 0x2001#32)]) =
        .next ((small [(6, 0x2001#32)]).takeTrap ⟨.loadAddressMisaligned, 0x2001#32⟩) := ⟨rfl, rfl⟩

theorem witness_OnlyEcallAndEbreakCompleteARun :
    step (holding 0x00000073#32 (start [])) =
        .next ((holding 0x00000073#32 (start [])).takeTrap ⟨.environmentCall, 0⟩) ∧
      ((holding 0x00000073#32 (start [])).takeTrap ⟨.environmentCall, 0⟩).completed = true ∧
    step (holding 0x00100073#32 (start [])) = .next ((holding 0x00100073#32 (start [])).takeTrap ⟨.breakpoint, 0⟩) ∧
      ((holding 0x00100073#32 (start [])).takeTrap ⟨.breakpoint, 0⟩).completed = true := ⟨rfl, rfl, rfl, rfl⟩

/-- A state with listed bytes, a device and dirty addresses that meets the invariant, and its step, a store at the last
word of main memory. -/
theorem witness_EveryStepKeepsTheInvariant :
    (holding 0x00532023#32 { small [(5, 7#32), (6, 0x2FFC#32)] with dirty := [0x2FFF] }).Inv ∧
      (after 0x00532023#32 { small [(5, 7#32), (6, 0x2FFC#32)] with dirty := [0x2FFF] }).map State.dirty =
        some [0x2FFC, 0x2FFD, 0x2FFE, 0x2FFF] :=
  ⟨⟨rfl, by decide, by unfold memInMain; decide, by unfold dirtyInMain; decide, fun _ h => by cases h⟩, by decide⟩

theorem witness_LaunchMeetsTheInvariant :
    (⟨smallMap, 0x1FFC#32, (data []).mem, Vector.replicate 31 0⟩ : Launch).alignedEntry ∧ (data []).mem.wf ∧
      memInMain (State.launch ⟨smallMap, 0x1FFC#32, (data []).mem, Vector.replicate 31 0⟩) :=
  ⟨rfl, by decide, by unfold memInMain; decide⟩

/-- A next state of a step and of an instruction that is no store, no FENCE.I and no transfer: NoStepChangesTheMap,
OnlyStoresChangeMemory, DirtyGrowsByStoresAndEmptiesByFenceI, OnlyTheNamedDestinationChanges,
PcAdvancesByFourOutsideTransfers. -/
theorem witness_NoStepChangesTheMap :
    step (holding 0x00000013#32 (start [])) = .next (holding 0x00000013#32 (start [])).advance := by rfl
theorem witness_OnlyStoresChangeMemory :
    exec (.add 3 1 2) (start []) = .next ((start []).setReg 3 0).advance ∧ isStore (.add 3 1 2) = false ∧
      isFenceI (.add 3 1 2) = false ∧ isTransfer (.add 3 1 2) = false ∧ destOf (.add 3 1 2) ≠ some 4 ∧
      ((start []).setReg 3 0).advance.trap = none := ⟨rfl, rfl, rfl, rfl, by decide, rfl⟩
theorem witness_DirtyGrowsByStoresAndEmptiesByFenceI :
    isStore (.sb 5 6 0) = true ∧ exec (.sb 5 6 0) (start []) = .next ((start []).mainStore 0 .byte 0).advance ∧
      isFenceI (.fenceI 0 0 0) = true ∧ exec (.fenceI 0 0 0) (start []) = .next (start []).advance := ⟨rfl, rfl, rfl, rfl⟩
theorem witness_DeviceAccessesAreMadeOnceInOrder :
    exec (.sb 5 6 0) (small [(6, 0x400F#32)]) =
      .next ((small [(6, 0x400F#32)]).ioWriteDone 0x400F#32 .byte 0).advance := by rfl

/-- A canonical memory, the highest address, and a write that removes an entry: ByteReadsWhatWasWritten,
MemoryWriteKeepsTheCanonicalForm, EqualBytesMeanEqualMemories. -/
theorem witness_MemoryWriteKeepsTheCanonicalForm :
    Memory.wf [(0, 1#8), (0xFFFFFFFF, 2#8)] ∧ 0xFFFFFFFF < 2 ^ 32 ∧
      Memory.write [(0, 1#8), (0xFFFFFFFF, 2#8)] 0xFFFFFFFF 0#8 = [(0, 1#8)] := by decide

/-- Two canonical memories, reached by writes in either order, that read the same everywhere. -/
theorem witness_EqualBytesMeanEqualMemories :
    Memory.wf ((Memory.write [] 8 1#8).write 4 2#8) ∧ Memory.wf ((Memory.write [] 4 2#8).write 8 1#8) ∧
      ∀ a, ((Memory.write [] 8 1#8).write 4 2#8).read a = ((Memory.write [] 4 2#8).write 8 1#8).read a :=
  ⟨by decide, by decide, fun _ => rfl⟩

theorem witness_WordStoreIsReadBackLittleEndian :
    (data [(5, 7#32), (6, 0xFFFFFFFC#32)]).mem.wf ∧
      kindAt Config.resetMap (effAddr 6 0#12 (data [(5, 7#32), (6, 0xFFFFFFFC#32)])) = .main ∧
      permitted Config.resetMap (effAddr 6 0#12 (data [(5, 7#32), (6, 0xFFFFFFFC#32)])) 4 .read = true ∧
      effAddr 6 3#12 (data [(5, 7#32), (6, 0xFFFFFFFC#32)]) = effAddr 6 0#12 (data [(5, 7#32), (6, 0xFFFFFFFC#32)]) + 3 ∧
      exec (.sw 5 6 0#12) (data [(5, 7#32), (6, 0xFFFFFFFC#32)]) =
        .next ((data [(5, 7#32), (6, 0xFFFFFFFC#32)]).mainStore 0xFFFFFFFC#32 .word 7#32).advance ∧
      ((data [(5, 7#32), (6, 0xFFFFFFFC#32)]).mainStore 0xFFFFFFFC#32 .word 7#32).advance.trap = none :=
  ⟨by decide, by decide, by decide, by decide, rfl, rfl⟩

theorem witness_UpperImmediateThenAddiReachesEveryValue : (31 : RegIdx) ≠ 0 := by decide

/-- A word like SLLI's with bit 25 set. -/
theorem witness_ImmediateShiftResults :
    0x02001013#32 &&& 0x0000707F#32 = 0x00001013#32 ∧ (0x02001013#32).extractLsb' 25 7 ≠ 0 := by decide

/-! Each clause of the load and store statements, at the first or the last address of a region. -/

theorem witness_ByteLoadResults_main :
    0x2FFF#32 = effAddr 6 0#12 (small [(6, 0x2FFF#32)]) ∧ kindAt (small [(6, 0x2FFF#32)]).map 0x2FFF#32 = .main ∧
      permitted (small [(6, 0x2FFF#32)]).map 0x2FFF#32 1 .read = true := by decide
theorem witness_ByteLoadResults_io :
    0x400F#32 = effAddr 6 0#12 (small [(6, 0x400F#32)]) ∧ kindAt (small [(6, 0x400F#32)]).map 0x400F#32 = .io ∧
      permitted (small [(6, 0x400F#32)]).map 0x400F#32 1 .read = true := by decide
theorem witness_ByteLoadResults_forbidden :
    0x4010#32 = effAddr 6 0#12 (small [(6, 0x4010#32)]) ∧
      permitted (small [(6, 0x4010#32)]).map 0x4010#32 1 .read = false := by decide

theorem witness_HalfwordLoadResults_main :
    0x2FFE#32 = effAddr 6 0#12 (small [(6, 0x2FFE#32)]) ∧ (0x2FFE#32).toNat % 2 = 0 ∧
      kindAt (small [(6, 0x2FFE#32)]).map 0x2FFE#32 = .main ∧
      permitted (small [(6, 0x2FFE#32)]).map 0x2FFE#32 2 .read = true := by decide
theorem witness_HalfwordLoadResults_io :
    0x400E#32 = effAddr 6 0#12 (small [(6, 0x400E#32)]) ∧ (0x400E#32).toNat % 2 = 0 ∧
      kindAt (small [(6, 0x400E#32)]).map 0x400E#32 = .io ∧
      permitted (small [(6, 0x400E#32)]).map 0x400E#32 2 .read = true := by decide
theorem witness_HalfwordLoadResults_forbidden :
    0x4010#32 = effAddr 6 0#12 (small [(6, 0x4010#32)]) ∧ (0x4010#32).toNat % 2 = 0 ∧
      permitted (small [(6, 0x4010#32)]).map 0x4010#32 2 .read = false := by decide
theorem witness_HalfwordLoadResults_misaligned :
    0xFFFFFFFF#32 = effAddr 0 0xFFF#12 (small []) ∧ (0xFFFFFFFF#32).toNat % 2 ≠ 0 := by decide

theorem witness_WordLoadResults_main :
    0xFFFFFFFC#32 = effAddr 0 0xFFC#12 (start []) ∧ (0xFFFFFFFC#32).toNat % 4 = 0 ∧
      kindAt (start []).map 0xFFFFFFFC#32 = .main ∧ permitted (start []).map 0xFFFFFFFC#32 4 .read = true := by decide
theorem witness_WordLoadResults_io :
    0x400C#32 = effAddr 6 0#12 (small [(6, 0x400C#32)]) ∧ (0x400C#32).toNat % 4 = 0 ∧
      kindAt (small [(6, 0x400C#32)]).map 0x400C#32 = .io ∧
      permitted (small [(6, 0x400C#32)]).map 0x400C#32 4 .read = true := by decide
theorem witness_WordLoadResults_forbidden :
    0x3000#32 = effAddr 6 0#12 (small [(6, 0x3000#32)]) ∧ (0x3000#32).toNat % 4 = 0 ∧
      permitted (small [(6, 0x3000#32)]).map 0x3000#32 4 .read = false := by decide
theorem witness_WordLoadResults_misaligned :
    0x2FFE#32 = effAddr 6 0#12 (small [(6, 0x2FFE#32)]) ∧ (0x2FFE#32).toNat % 4 ≠ 0 := by decide

theorem witness_ByteStoreResults_main :
    0x2FFF#32 = effAddr 6 0#12 (small [(6, 0x2FFF#32)]) ∧ (small [(6, 0x2FFF#32)]).mem.wf ∧
      kindAt (small [(6, 0x2FFF#32)]).map 0x2FFF#32 = .main ∧
      permitted (small [(6, 0x2FFF#32)]).map 0x2FFF#32 1 .write = true := by decide
theorem witness_ByteStoreResults_io :
    0x400F#32 = effAddr 6 0#12 (small [(6, 0x400F#32)]) ∧ kindAt (small [(6, 0x400F#32)]).map 0x400F#32 = .io ∧
      permitted (small [(6, 0x400F#32)]).map 0x400F#32 1 .write = true := by decide
theorem witness_ByteStoreResults_forbidden :
    0x3FFF#32 = effAddr 6 0#12 (small [(6, 0x3FFF#32)]) ∧
      permitted (small [(6, 0x3FFF#32)]).map 0x3FFF#32 1 .write = false := by decide

theorem witness_HalfwordStoreResults_main :
    0x2FFE#32 = effAddr 6 0#12 (small [(6, 0x2FFE#32)]) ∧ (0x2FFE#32).toNat % 2 = 0 ∧
      (small [(6, 0x2FFE#32)]).mem.wf ∧ kindAt (small [(6, 0x2FFE#32)]).map 0x2FFE#32 = .main ∧
      permitted (small [(6, 0x2FFE#32)]).map 0x2FFE#32 2 .write = true := by decide
theorem witness_HalfwordStoreResults_io :
    0x4000#32 = effAddr 6 0#12 (small [(6, 0x4000#32)]) ∧ (0x4000#32).toNat % 2 = 0 ∧
      kindAt (small [(6, 0x4000#32)]).map 0x4000#32 = .io ∧
      permitted (small [(6, 0x4000#32)]).map 0x4000#32 2 .write = true := by decide
theorem witness_HalfwordStoreResults_forbidden :
    0x4010#32 = effAddr 6 0#12 (small [(6, 0x4010#32)]) ∧ (0x4010#32).toNat % 2 = 0 ∧
      permitted (small [(6, 0x4010#32)]).map 0x4010#32 2 .write = false := by decide
theorem witness_HalfwordStoreResults_misaligned :
    0x2FFF#32 = effAddr 6 0#12 (small [(6, 0x2FFF#32)]) ∧ (0x2FFF#32).toNat % 2 ≠ 0 := by decide

theorem witness_WordStoreResults_main :
    0x2FFC#32 = effAddr 6 0#12 (small [(6, 0x2FFC#32)]) ∧ (0x2FFC#32).toNat % 4 = 0 ∧
      (small [(6, 0x2FFC#32)]).mem.wf ∧ kindAt (small [(6, 0x2FFC#32)]).map 0x2FFC#32 = .main ∧
      permitted (small [(6, 0x2FFC#32)]).map 0x2FFC#32 4 .write = true := by decide
theorem witness_WordStoreResults_io :
    0x400C#32 = effAddr 6 0#12 (small [(6, 0x400C#32)]) ∧ (0x400C#32).toNat % 4 = 0 ∧
      kindAt (small [(6, 0x400C#32)]).map 0x400C#32 = .io ∧
      permitted (small [(6, 0x400C#32)]).map 0x400C#32 4 .write = true := by decide
theorem witness_WordStoreResults_forbidden :
    0x0FFC#32 = effAddr 6 0#12 (small [(6, 0x0FFC#32)]) ∧ (0x0FFC#32).toNat % 4 = 0 ∧
      permitted (small [(6, 0x0FFC#32)]).map 0x0FFC#32 4 .write = false := by decide
theorem witness_WordStoreResults_misaligned :
    0x2FFE#32 = effAddr 6 0#12 (small [(6, 0x2FFE#32)]) ∧ (0x2FFE#32).toNat % 4 ≠ 0 := by decide

/-- Each of the six conditions holds of one pair of registers and fails of another. -/
theorem witness_BranchResults_taken :
    (start [(1, 5#32), (2, 5#32)]).reg 1 = (start [(1, 5#32), (2, 5#32)]).reg 2 ∧
    (start [(1, 5#32)]).reg 1 ≠ (start [(1, 5#32)]).reg 2 ∧
    ((start [(1, 0x80000000#32)]).reg 1).toInt < ((start [(1, 0x80000000#32)]).reg 2).toInt ∧
    ((start [(1, 5#32), (2, 5#32)]).reg 2).toInt ≤ ((start [(1, 5#32), (2, 5#32)]).reg 1).toInt ∧
    ((start [(2, 0x80000000#32)]).reg 1).toNat < ((start [(2, 0x80000000#32)]).reg 2).toNat ∧
    ((start [(1, 5#32), (2, 5#32)]).reg 2).toNat ≤ ((start [(1, 5#32), (2, 5#32)]).reg 1).toNat := by decide
theorem witness_BranchResults_not_taken :
    ¬ (start [(1, 5#32)]).reg 1 = (start [(1, 5#32)]).reg 2 ∧ ¬ (start []).reg 1 ≠ (start []).reg 2 ∧
    ¬ ((start []).reg 1).toInt < ((start []).reg 2).toInt ∧
    ¬ ((start [(2, 5#32)]).reg 2).toInt ≤ ((start [(2, 5#32)]).reg 1).toInt ∧
    ¬ ((start []).reg 1).toNat < ((start []).reg 2).toNat ∧
    ¬ ((start [(2, 5#32)]).reg 2).toNat ≤ ((start [(2, 5#32)]).reg 1).toNat := by decide
/-- Aligned and misaligned targets at both ends of the range of the offset. -/
theorem witness_BranchResults_targets :
    ((start []).pc + (0x1000#13).signExtend 32).getLsbD 1 = false ∧
    ((start []).pc + (4092#13).signExtend 32).getLsbD 1 = false ∧
    ((start []).pc + (0x1002#13).signExtend 32).getLsbD 1 = true ∧
    ((start []).pc + (4094#13).signExtend 32).getLsbD 1 = true := by decide

theorem witness_JumpResults :
    ((start []).pc + (0x100000#21).signExtend 32).getLsbD 1 = false ∧
    ((start []).pc + (0x0FFFFE#21).signExtend 32).getLsbD 1 = true ∧
    (0x2000#32).toNat = ((start [(5, 0x2000#32)]).reg 5 + (0x001#12).signExtend 32).toNat / 2 * 2 ∧
    (0x2000#32).getLsbD 1 = false ∧
    (0x2002#32).toNat = ((start [(5, 0x2000#32)]).reg 5 + (0x003#12).signExtend 32).toNat / 2 * 2 ∧
    (0x2002#32).getLsbD 1 = true := by decide

theorem witness_CsrOutcomeTable :
    0xC82#12 ∈ counterAddresses ∧ 0xC00#12 ∈ counterAddresses ∧ ((6 : RegIdx) ≠ 0 ∨ 0xC00#12 ∉ counterAddresses) ∧
    ((0 : RegIdx) ≠ 0 ∨ 0xC03#12 ∉ counterAddresses) ∧ ((0 : RegIdx) ≠ 0 ∨ 0xBFF#12 ∉ counterAddresses) := by decide

/-- A FENCE.I at pc whose last byte is `dirty`. -/
theorem witness_FenceIResults :
    { holding 0xABC3128F#32 (start []) with dirty := [0x1003] }.trap = none ∧
    pcAligned { holding 0xABC3128F#32 (start []) with dirty := [0x1003] } ∧
    permitted (holding 0xABC3128F#32 (start [])).map 0x1000#32 4 .execute = true ∧
    { holding 0xABC3128F#32 (start []) with dirty := [0x1003] }.mainValue 0x1000#32 .word =
      encode (.fenceI 0xABC#12 6 5) ∧
    isStale [0x1003] 0x1000#32 = true := ⟨rfl, rfl, by decide, by decide, by decide⟩

theorem witness_StoreIntoNextWordIsRefused :
    pcAligned (start [(6, 0x1004#32)]) ∧
    exec (.sw 5 6 0#12) (start [(6, 0x1004#32)]) =
      .next ((start [(6, 0x1004#32)]).mainStore 0x1004#32 .word 0).advance ∧
    ((start [(6, 0x1004#32)]).mainStore 0x1004#32 .word 0).advance.trap = none ∧
    kindAt Config.resetMap (effAddr 6 0#12 (start [(6, 0x1004#32)])) = .main ∧
    effAddr 6 0#12 (start [(6, 0x1004#32)]) = (start [(6, 0x1004#32)]).pc + 4 ∧
    permitted Config.resetMap ((start [(6, 0x1004#32)]).pc + 4) 4 .execute = true :=
  ⟨rfl, rfl, rfl, by decide, by decide, by decide⟩

end Sys2Proof.Tests
end

section
/-! The register-register instructions (R80 to R91): what `writeBack` leaves of a state, the comparisons and the shifts as
arithmetic, each instruction's meaning as one `writeBack`, and from these the statements of the family. -/

namespace Sys2Proof.Machine

/-! ### `writeBack` -/

/-- Every register after `x[rd] <- v`: `x0` stays zero (R11). -/
theorem State.reg_setReg (s : State) (rd r : RegIdx) (v : Word) :
    (s.setReg rd v).reg r = if r = 0 then 0 else if r = rd then v else s.reg r := by
  by_cases hz : r = 0
  · subst hz; exact (State.reg_zero _).trans (if_pos rfl).symm
  by_cases hd : r = rd
  · subst hd; rw [State.reg_setReg_self s v hz, if_neg hz, if_pos rfl]
  · rw [State.reg_setReg_ne s v hd, if_neg hz, if_neg hd]

theorem writesReg_setReg_advance (rd : RegIdx) (v : Word) (s : State) :
    WritesReg s (s.setReg rd v).advance rd v (s.pc + 4) where
  regs r := by rw [State.reg_advance, State.reg_setReg]
  pc := by simp
  draws := by simp
  rest :=
    { bytes := by simp
      dirty := by simp
      trap := by simp
      map := by simp
      io := by simp }

/-- An instruction whose meaning is a `writeBack` writes that value, advances and does nothing else. -/
theorem exec_writesReg {i : Instr} {rd : RegIdx} {v : Word} {s : State} (h : exec i s = writeBack rd v s) :
    ∃ t, exec i s = .next t ∧ WritesReg s t rd v (s.pc + 4) :=
  ⟨(s.setReg rd v).advance, h, writesReg_setReg_advance rd v s⟩

/-- The same with a property `P` of the value written. -/
theorem exec_writesReg_value {i : Instr} {rd : RegIdx} {v : Word} {s : State} {P : Word → Prop}
    (h : exec i s = writeBack rd v s) (hv : P v) :
    ∃ t w, exec i s = .next t ∧ WritesReg s t rd w (s.pc + 4) ∧ P w :=
  have ⟨t, hexec, hwrites⟩ := exec_writesReg h
  ⟨t, v, hexec, hwrites, hv⟩

/-! ### Comparisons (R4) -/

theorem flagWord_ltS (a b : Word) : flagWord (ltS a b) = if a.toInt < b.toInt then 1 else 0 := by
  simp [flagWord, ltS, BitVec.slt]

theorem flagWord_ltU (a b : Word) : flagWord (ltU a b) = if a.toNat < b.toNat then 1 else 0 := by
  simp [flagWord, ltU, BitVec.ult]

/-! ### Shifts (R4) as arithmetic -/

theorem shiftAmount_eq_mod (v : Word) : shiftAmount v = v.toNat % 32 := by
  simp [shiftAmount]

theorem toNat_shiftLeft (a : Word) (n : Nat) : (shiftLeft a n).toNat = a.toNat * 2 ^ n % 2 ^ 32 := by
  rw [shiftLeft, BitVec.toNat_shiftLeft, Nat.shiftLeft_eq]

theorem toNat_shiftRightU (a : Word) (n : Nat) : (shiftRightU a n).toNat = a.toNat / 2 ^ n := by
  rw [shiftRightU, BitVec.toNat_ushiftRight, Nat.shiftRight_eq_div_pow]

/-- The arithmetic shift rounds toward minus infinity: `Int`'s division by a positive number does. -/
theorem toInt_shiftRightS (a : Word) (n : Nat) : (shiftRightS a n).toInt = a.toInt / 2 ^ n := by
  rw [shiftRightS, BitVec.toInt_sshiftRight, Int.shiftRight_eq_div_pow, Nat.cast_pow, Nat.cast_ofNat]

/-! ### The meaning of each instruction as one `writeBack` (R80) -/

section
variable (rd rs1 rs2 : RegIdx) (s : State)

theorem exec_add : exec (.add rd rs1 rs2) s = writeBack rd (s.reg rs1 + s.reg rs2) s := rfl
theorem exec_sub : exec (.sub rd rs1 rs2) s = writeBack rd (s.reg rs1 - s.reg rs2) s := rfl
theorem exec_xor : exec (.xor rd rs1 rs2) s = writeBack rd (s.reg rs1 ^^^ s.reg rs2) s := rfl
theorem exec_or : exec (.or rd rs1 rs2) s = writeBack rd (s.reg rs1 ||| s.reg rs2) s := rfl
theorem exec_and : exec (.and rd rs1 rs2) s = writeBack rd (s.reg rs1 &&& s.reg rs2) s := rfl

theorem exec_slt : exec (.slt rd rs1 rs2) s =
    writeBack rd (if (s.reg rs1).toInt < (s.reg rs2).toInt then 1 else 0) s := by
  rw [← flagWord_ltS]; rfl

theorem exec_sltu : exec (.sltu rd rs1 rs2) s =
    writeBack rd (if (s.reg rs1).toNat < (s.reg rs2).toNat then 1 else 0) s := by
  rw [← flagWord_ltU]; rfl

theorem exec_sll : exec (.sll rd rs1 rs2) s =
    writeBack rd (shiftLeft (s.reg rs1) ((s.reg rs2).toNat % 32)) s := by
  rw [← shiftAmount_eq_mod]; rfl

theorem exec_srl : exec (.srl rd rs1 rs2) s =
    writeBack rd (shiftRightU (s.reg rs1) ((s.reg rs2).toNat % 32)) s := by
  rw [← shiftAmount_eq_mod]; rfl

theorem exec_sra : exec (.sra rd rs1 rs2) s =
    writeBack rd (shiftRightS (s.reg rs1) ((s.reg rs2).toNat % 32)) s := by
  rw [← shiftAmount_eq_mod]; rfl

end

/-! ### Encodings -/

/-- The law of R61 as an equation: under its row's mask, an encoding is the row's pattern. -/
theorem encode_masked {i : Instr} (h : Laws.EncodingMatchesRow.Statement i) : encode i &&& i.row.mask = i.row.pattern :=
  of_decide_eq_true h

/-! ### The statements -/

/-- Settles O32: each instruction is one `writeBack` of its result, and its encoding fits its row. -/
theorem addSubAndLogicResults : Obligations.AddSubAndLogicResults := by
  intro rd rs1 rs2 s
  exact ⟨exec_writesReg (exec_add ..), exec_writesReg (exec_sub ..), exec_writesReg (exec_xor ..),
    exec_writesReg (exec_or ..), exec_writesReg (exec_and ..),
    encode_masked (Laws.EncodingMatchesRow.add ..), encode_masked (Laws.EncodingMatchesRow.sub ..),
    encode_masked (Laws.EncodingMatchesRow.xor ..), encode_masked (Laws.EncodingMatchesRow.or ..),
    encode_masked (Laws.EncodingMatchesRow.and ..)⟩

/-- Settles O33: `flagWord` of a comparison is 1 or 0 by the mathematical values. -/
theorem setLessThanResults : Obligations.SetLessThanResults := by
  intro rd rs1 rs2 s
  exact ⟨exec_writesReg (exec_slt ..), exec_writesReg (exec_sltu ..),
    encode_masked (Laws.EncodingMatchesRow.slt ..), encode_masked (Laws.EncodingMatchesRow.sltu ..)⟩

/-- Settles O34: the shift amount is `x[rs2] mod 32`, and a shift by `n` multiplies or divides by `2 ^ n`. -/
theorem registerShiftResults : Obligations.RegisterShiftResults := by
  intro rd rs1 rs2 s
  exact ⟨exec_writesReg_value (exec_sll ..) (toNat_shiftLeft ..),
    exec_writesReg_value (exec_srl ..) (toNat_shiftRightU ..),
    exec_writesReg_value (exec_sra ..) (toInt_shiftRightS ..),
    encode_masked (Laws.EncodingMatchesRow.sll ..), encode_masked (Laws.EncodingMatchesRow.srl ..),
    encode_masked (Laws.EncodingMatchesRow.sra ..)⟩

end Sys2Proof.Machine
end

section
/-! The register-immediate instructions (R110 to R119): each instruction's meaning as one `writeBack`, the words that share
SLLI's opcode and `funct3`, and from these the statements of the family. -/

namespace Sys2Proof.Machine

/-! ### The meaning of each instruction as one `writeBack` (R110) -/

section
variable (rd rs1 : RegIdx) (imm : BitVec 12) (shamt : BitVec 5) (s : State)

theorem exec_addi : exec (.addi rd rs1 imm) s = writeBack rd (s.reg rs1 + imm.signExtend 32) s := rfl
theorem exec_xori : exec (.xori rd rs1 imm) s = writeBack rd (s.reg rs1 ^^^ imm.signExtend 32) s := rfl
theorem exec_ori : exec (.ori rd rs1 imm) s = writeBack rd (s.reg rs1 ||| imm.signExtend 32) s := rfl
theorem exec_andi : exec (.andi rd rs1 imm) s = writeBack rd (s.reg rs1 &&& imm.signExtend 32) s := rfl

/-- Sign extension keeps the signed value, so SLTI compares with the immediate's own (R112). -/
theorem exec_slti : exec (.slti rd rs1 imm) s =
    writeBack rd (if (s.reg rs1).toInt < imm.toInt then 1 else 0) s := by
  have himm : (imm12 imm).toInt = imm.toInt := BitVec.toInt_signExtend_of_le (by decide)
  rw [← himm, ← flagWord_ltS]; rfl

/-- SLTIU compares with the unsigned number of the sign-extended field (R113). -/
theorem exec_sltiu : exec (.sltiu rd rs1 imm) s =
    writeBack rd (if (s.reg rs1).toNat < (imm.signExtend 32).toNat then 1 else 0) s := by
  rw [← flagWord_ltU]; rfl

theorem exec_slli : exec (.slli rd rs1 shamt) s = writeBack rd (shiftLeft (s.reg rs1) shamt.toNat) s := rfl
theorem exec_srli : exec (.srli rd rs1 shamt) s = writeBack rd (shiftRightU (s.reg rs1) shamt.toNat) s := rfl
theorem exec_srai : exec (.srai rd rs1 shamt) s = writeBack rd (shiftRightS (s.reg rs1) shamt.toNat) s := rfl

end

/-! ### A word's opcode and `funct3` under the mask 0x0000707F (R61) -/

/-- The mask keeps `funct3` and the opcode and clears every other field. -/
theorem and_maskI_eq_packI (w : Word) : w &&& 0x0000707F#32 = packI 0 0 (funct3Field w) 0 (opcodeField w) := by
  have h := packI_masked (immIField w) (rs1Field w) (funct3Field w) (rdField w) (opcodeField w)
  rwa [packI_fields] at h

theorem opcodeField_and_maskI (w : Word) : opcodeField (w &&& 0x0000707F#32) = opcodeField w := by
  rw [and_maskI_eq_packI, opcodeField_packI]

theorem funct3Field_and_maskI (w : Word) : funct3Field (w &&& 0x0000707F#32) = funct3Field w := by
  rw [and_maskI_eq_packI, funct3Field_packI]

/-! ### Decoding the opcode 0010011 (R60, R62) -/

theorem decode_of_opImm {w : Word} (hop : opcodeField w = 0b0010011#7) : decode w = decodeOpImm w := by
  simp only [decode, hop]

/-- With SLLI's `funct3`, only `inst[31:25] = 0000000` is an instruction (R62): `h7` shuts out the first arm of the inner
match. -/
theorem decodeOpImm_of_bad_slli {w : Word} (h3 : funct3Field w = 0b001#3) (h7 : funct7Field w ≠ 0b0000000#7) :
    decodeOpImm w = .error .shiftImm := by
  simp only [decodeOpImm, h3]

/-- SLLI's opcode and `funct3` with another `inst[31:25]` (R117). -/
theorem decode_bad_slli {w : Word} (hw : w &&& 0x0000707F#32 = 0x00001013#32) (h7 : funct7Field w ≠ 0b0000000#7) :
    decode w = .error .shiftImm := by
  have hop : opcodeField w = 0b0010011#7 := by rw [← opcodeField_and_maskI, hw]; rfl
  have h3 : funct3Field w = 0b001#3 := by rw [← funct3Field_and_maskI, hw]; rfl
  rw [decode_of_opImm hop, decodeOpImm_of_bad_slli h3 h7]

/-! ### The statements -/

/-- Settles O35: each instruction is one `writeBack` of its result, and its encoding fits its row. -/
theorem addImmediateAndLogicImmediateResults : Obligations.AddImmediateAndLogicImmediateResults := by
  intro rd rs1 imm s
  exact ⟨exec_writesReg (exec_addi ..), exec_writesReg (exec_xori ..),
    exec_writesReg (exec_ori ..), exec_writesReg (exec_andi ..),
    encode_masked (Laws.EncodingMatchesRow.addi ..), encode_masked (Laws.EncodingMatchesRow.xori ..),
    encode_masked (Laws.EncodingMatchesRow.ori ..), encode_masked (Laws.EncodingMatchesRow.andi ..)⟩

/-- Settles O36: the signed comparison sees the immediate's own value, the unsigned one its 32 sign-extended bits. -/
theorem setLessThanImmediateResults : Obligations.SetLessThanImmediateResults := by
  intro rd rs1 imm s
  exact ⟨exec_writesReg (exec_slti ..), exec_writesReg (exec_sltiu ..),
    encode_masked (Laws.EncodingMatchesRow.slti ..), encode_masked (Laws.EncodingMatchesRow.sltiu ..)⟩

/-- Settles O37: a shift by `shamt` multiplies or divides by `2 ^ shamt`; the words left over of SLLI do not decode. -/
theorem immediateShiftResults : Obligations.ImmediateShiftResults := by
  intro rd rs1 shamt s
  exact ⟨exec_writesReg_value (exec_slli ..) (toNat_shiftLeft ..),
    exec_writesReg_value (exec_srli ..) (toNat_shiftRightU ..),
    exec_writesReg_value (exec_srai ..) (toInt_shiftRightS ..),
    encode_masked (Laws.EncodingMatchesRow.slli ..), encode_masked (Laws.EncodingMatchesRow.srli ..),
    encode_masked (Laws.EncodingMatchesRow.srai ..),
    fun _ hw h7 => ⟨.shiftImm, decode_bad_slli hw h7⟩⟩

end Sys2Proof.Machine
end

section
/-! The U-format instructions (R170 to R172): the U-immediate as a number, each instruction's meaning as one `writeBack`,
and from these the statement of the family. -/

namespace Sys2Proof.Machine

/-! ### The U-immediate and the target it makes, as numbers (R57, R14) -/

/-- Twelve zeros below the field multiply it by `2 ^ 12`; 20 bits leave no room for a carry out of the word. -/
theorem toNat_immU (imm : BitVec 20) : (immU imm).toNat = imm.toNat * 4096 := by
  rw [immU, BitVec.toNat_append, BitVec.toNat_ofNat, Nat.zero_mod, Nat.or_zero, Nat.shiftLeft_eq]

/-- The sum wraps at `2 ^ 32` (R4). -/
theorem toNat_pcRelative_immU (imm : BitVec 20) (s : State) :
    (pcRelative (immU imm) s).toNat = (s.pc.toNat + imm.toNat * 4096) % 2 ^ 32 := by
  rw [pcRelative, BitVec.toNat_add, toNat_immU]

/-! ### The meaning of each instruction as one `writeBack` (R170) -/

section
variable (rd : RegIdx) (imm : BitVec 20) (s : State)

theorem exec_lui : exec (.lui rd imm) s = writeBack rd (immU imm) s := rfl
theorem exec_auipc : exec (.auipc rd imm) s = writeBack rd (pcRelative (immU imm) s) s := rfl

end

/-! ### The statement -/

/-- Settles O38: LUI writes the field times 4096, AUIPC that many bytes past its own address. -/
theorem upperImmediateResults : Obligations.UpperImmediateResults := by
  intro rd imm s
  exact ⟨exec_writesReg_value (exec_lui ..) (toNat_immU imm),
    exec_writesReg_value (exec_auipc ..) (toNat_pcRelative_immU imm s),
    encode_masked (Laws.EncodingMatchesRow.lui ..), encode_masked (Laws.EncodingMatchesRow.auipc ..)⟩

end Sys2Proof.Machine
end

section
/-! Decoder and encoder (R60 to R66): decoding by opcode, each sub-decoder against the encoder, the fields a row's mask
fixes, and from these the statements on encoding. -/

namespace Sys2Proof

/-! ### Decoding by opcode (R60) -/

section
variable {w : Word}

theorem decode_of_lui (hop : opcodeField w = 0b0110111#7) : decode w = .ok (.lui (rdField w) (immUField w)) := by
  simp only [decode, hop]

theorem decode_of_auipc (hop : opcodeField w = 0b0010111#7) : decode w = .ok (.auipc (rdField w) (immUField w)) := by
  simp only [decode, hop]

theorem decode_of_jal (hop : opcodeField w = 0b1101111#7) : decode w = .ok (.jal (rdField w) (immJField w)) := by
  simp only [decode, hop]

theorem decode_of_jalr (hop : opcodeField w = 0b1100111#7) : decode w = decodeJalr w := by
  simp only [decode, hop]

theorem decode_of_branch (hop : opcodeField w = 0b1100011#7) : decode w = decodeBranch w := by
  simp only [decode, hop]

theorem decode_of_load (hop : opcodeField w = 0b0000011#7) : decode w = decodeLoad w := by
  simp only [decode, hop]

theorem decode_of_store (hop : opcodeField w = 0b0100011#7) : decode w = decodeStore w := by
  simp only [decode, hop]

theorem decode_of_op (hop : opcodeField w = 0b0110011#7) : decode w = decodeOp w := by
  simp only [decode, hop]

theorem decode_of_miscMem (hop : opcodeField w = 0b0001111#7) : decode w = decodeMiscMem w := by
  simp only [decode, hop]

theorem decode_of_system (hop : opcodeField w = 0b1110011#7) : decode w = decodeSystem w := by
  simp only [decode, hop]

end

/-! ### A decoded instruction's word, one lemma per sub-decoder

Each arm packs the fields of `w` with the opcode and function codes that the matches have found in it. -/

section
variable {w : Word} {i : Instr}

theorem encode_of_decodeJalr (hop : opcodeField w = 0b1100111#7) (h : decodeJalr w = .ok i) :
    encode i = w ∧ i.wellFormed = true := by
  have hw := packI_fields w
  unfold decodeJalr at h
  split at h <;> cases h
  next h3 => rw [hop, h3] at hw; exact ⟨hw, rfl⟩

theorem encode_of_decodeBranch (hop : opcodeField w = 0b1100011#7) (h : decodeBranch w = .ok i) :
    encode i = w ∧ i.wellFormed = true := by
  have hw := packB_fields w
  unfold decodeBranch at h
  split at h <;> cases h <;> next h3 => rw [hop, h3] at hw; exact ⟨hw, congrArg not (immBField_even w)⟩

theorem encode_of_decodeLoad (hop : opcodeField w = 0b0000011#7) (h : decodeLoad w = .ok i) :
    encode i = w ∧ i.wellFormed = true := by
  have hw := packI_fields w
  unfold decodeLoad at h
  split at h <;> cases h <;> next h3 => rw [hop, h3] at hw; exact ⟨hw, rfl⟩

theorem encode_of_decodeStore (hop : opcodeField w = 0b0100011#7) (h : decodeStore w = .ok i) :
    encode i = w ∧ i.wellFormed = true := by
  have hw := packS_fields w
  unfold decodeStore at h
  split at h <;> cases h <;> next h3 => rw [hop, h3] at hw; exact ⟨hw, rfl⟩

/-- The eight values of `funct3`: what is left where the arms before have taken seven of them. -/
theorem funct3_cases : ∀ f : BitVec 3,
    f = 0#3 ∨ f = 1#3 ∨ f = 2#3 ∨ f = 3#3 ∨ f = 4#3 ∨ f = 5#3 ∨ f = 6#3 ∨ f = 7#3 := by
  decide

theorem encode_of_decodeOpImm (hop : opcodeField w = 0b0010011#7) (h : decodeOpImm w = .ok i) :
    encode i = w ∧ i.wellFormed = true := by
  have hI := packI_fields w
  have hR := packR_fields w
  rw [hop] at hI hR
  unfold decodeOpImm at h
  split at h
  case h_7 h3 =>
    split at h <;> cases h
    next h7 => rw [h3, h7] at hR; exact ⟨hR, rfl⟩
  case h_8 h0 h2 h3 h4 h6 h7 h1 =>
    have h5 : funct3Field w = 0b101#3 := by have := funct3_cases (funct3Field w); tauto
    split at h <;> cases h <;> next hf7 => rw [h5, hf7] at hR; exact ⟨hR, rfl⟩
  all_goals cases h; next h3 => rw [h3] at hI; exact ⟨hI, rfl⟩

theorem encode_of_decodeOp (hop : opcodeField w = 0b0110011#7) (h : decodeOp w = .ok i) :
    encode i = w ∧ i.wellFormed = true := by
  have hw := packR_fields w
  unfold decodeOp at h
  split at h
  case h_1 h7 =>
    split at h
    case h_8 h0 h1 h2 h3 h4 h5 h6 =>
      have h7' : funct3Field w = 0b111#3 := by have := funct3_cases (funct3Field w); tauto
      cases h
      rw [hop, h7, h7'] at hw
      exact ⟨hw, rfl⟩
    all_goals cases h; next h3 => rw [hop, h7, h3] at hw; exact ⟨hw, rfl⟩
  case h_2 h7 =>
    split at h <;> cases h <;> next h3 => rw [hop, h7, h3] at hw; exact ⟨hw, rfl⟩
  case h_3 => cases h

theorem encode_of_decodeMiscMem (hop : opcodeField w = 0b0001111#7) (h : decodeMiscMem w = .ok i) :
    encode i = w ∧ i.wellFormed = true := by
  have hw := packI_fields w
  unfold decodeMiscMem at h
  split at h <;> cases h
  · next h3 => rw [hop, h3, ← fenceFields_eq_immIField] at hw; exact ⟨hw, rfl⟩
  · next h3 => rw [hop, h3] at hw; exact ⟨hw, rfl⟩

theorem encode_of_decodeSystem (hop : opcodeField w = 0b1110011#7) (h : decodeSystem w = .ok i) :
    encode i = w ∧ i.wellFormed = true := by
  have hw := packI_fields w
  unfold decodeSystem at h
  split at h
  case h_7 =>
    split at h
    · next he => cases h; exact ⟨he.symm, rfl⟩
    · split at h <;> cases h
      next he => exact ⟨he.symm, rfl⟩
  all_goals cases h; next h3 => rw [hop, h3] at hw; exact ⟨hw, rfl⟩

end

/-- Settles O3: by opcode, each sub-decoder loses no field. -/
theorem encodeGivesBackWhatWasDecoded : Obligations.EncodeGivesBackWhatWasDecoded := by
  intro w i h
  unfold decode at h
  split at h
  case h_1 hop => cases h; exact ⟨by rw [encode, ← hop, packU_fields], rfl⟩
  case h_2 hop => cases h; exact ⟨by rw [encode, ← hop, packU_fields], rfl⟩
  case h_3 hop => cases h; exact ⟨by rw [encode, ← hop, packJ_fields], congrArg not (immJField_even w)⟩
  case h_4 hop => exact encode_of_decodeJalr hop h
  case h_5 hop => exact encode_of_decodeBranch hop h
  case h_6 hop => exact encode_of_decodeLoad hop h
  case h_7 hop => exact encode_of_decodeStore hop h
  case h_8 hop => exact encode_of_decodeOpImm hop h
  case h_9 hop => exact encode_of_decodeOp hop h
  case h_10 hop => exact encode_of_decodeMiscMem hop h
  case h_11 hop => exact encode_of_decodeSystem hop h
  case h_12 => split at h <;> cases h

/-- Settles O2: every format's fields come back from the packed word, and the function fields choose the arm. -/
theorem decodeGivesBackWhatWasEncoded : Obligations.DecodeGivesBackWhatWasEncoded := by
  intro i hi
  cases i
  case lui => simp [encode, decode]
  case auipc => simp [encode, decode]
  case jal =>
    simp only [Instr.wellFormed, Bool.not_eq_true'] at hi
    simp [encode, decode, immJField_packJ _ _ _ hi]
  case jalr => simp [encode, decode, decodeJalr]
  case beq | bne | blt | bge | bltu | bgeu =>
    simp only [Instr.wellFormed, Bool.not_eq_true'] at hi
    simp [encode, decode, decodeBranch, immBField_packB _ _ _ _ _ hi]
  case lb | lh | lw | lbu | lhu => simp [encode, decode, decodeLoad]
  case sb | sh | sw => simp [encode, decode, decodeStore]
  case addi | slti | sltiu | xori | ori | andi => simp [encode, decode, decodeOpImm]
  case slli | srli | srai => simp [encode, decode, decodeOpImm]
  case add | sub | sll | slt | sltu | xor | srl | sra | or | and => simp [encode, decode, decodeOp]
  case fence => simp [encode, decode, decodeMiscMem, fenceFields_fm, fenceFields_pred, fenceFields_succ]
  case fenceI => simp [encode, decode, decodeMiscMem]
  case ecall | ebreak => rfl
  case csrrw | csrrs | csrrc | csrrwi | csrrsi | csrrci => simp [encode, decode, decodeSystem]

/-! ### What a row's mask and match fix of a word (R61) -/

/-- The mask of the U and J formats keeps the opcode. -/
theorem opcodeField_and_maskU (w : Word) : opcodeField (w &&& 0x0000007F#32) = opcodeField w := by
  have h := packU_masked (immUField w) (rdField w) (opcodeField w)
  rw [packU_fields] at h
  rw [h, opcodeField_packU]

/-- The mask of the R format keeps `funct7`, `funct3` and the opcode and clears every other field. -/
theorem and_maskR_eq_packR (w : Word) :
    w &&& 0xFE00707F#32 = packR (funct7Field w) 0 0 (funct3Field w) 0 (opcodeField w) := by
  have h := packR_masked (funct7Field w) (rs2Field w) (rs1Field w) (funct3Field w) (rdField w) (opcodeField w)
  rwa [packR_fields] at h

section
variable {v w : Word}

theorem same_opcode_of_maskU (h : v &&& 0x0000007F#32 = w &&& 0x0000007F#32) : opcodeField v = opcodeField w := by
  rw [← opcodeField_and_maskU v, h, opcodeField_and_maskU]

theorem same_codes_of_maskI (h : v &&& 0x0000707F#32 = w &&& 0x0000707F#32) :
    opcodeField v = opcodeField w ∧ funct3Field v = funct3Field w := by
  rw [← Machine.opcodeField_and_maskI v, ← Machine.funct3Field_and_maskI v, h, Machine.opcodeField_and_maskI,
    Machine.funct3Field_and_maskI]
  exact ⟨rfl, rfl⟩

theorem same_codes_of_maskR (h : v &&& 0xFE00707F#32 = w &&& 0xFE00707F#32) :
    opcodeField v = opcodeField w ∧ funct3Field v = funct3Field w ∧ funct7Field v = funct7Field w := by
  rw [and_maskR_eq_packR v, and_maskR_eq_packR w] at h
  exact ⟨by simpa using congrArg opcodeField h, by simpa using congrArg funct3Field h,
    by simpa using congrArg funct7Field h⟩

end

/-- Every instruction's row is in the table. -/
theorem row_mem_opcodeRows (i : Instr) : i.row ∈ opcodeRows := by
  cases i <;> simp [opcodeRows, transferSamples, memorySamples, immediateSamples, registerSamples, systemSamples,
    Instr.row]

open Laws.EncodingMatchesRow in
/-- The encoding of any instruction matches its row (R61). -/
theorem encoding_matches_row (i : Instr) : Laws.EncodingMatchesRow.Statement i := by
  cases i
  exacts [lui .., auipc .., jal .., jalr .., beq .., bne .., blt .., bge .., bltu .., bgeu .., lb .., lh .., lw ..,
    lbu .., lhu .., sb .., sh .., sw .., addi .., slti .., sltiu .., xori .., ori .., andi .., slli .., srli ..,
    srai .., add .., sub .., sll .., slt .., sltu .., xor .., srl .., sra .., or .., and .., fence ..,
    fenceI .., ecall, ebreak, csrrw .., csrrs .., csrrc .., csrrwi .., csrrsi .., csrrci ..]

/-- A word that matches an instruction's row agrees with the encoding wherever the mask looks. -/
theorem masked_eq_of_matches {w : Word} {i : Instr} (h : i.row.matchesWord w = true) :
    w &&& i.row.mask = encode i &&& i.row.mask :=
  (of_decide_eq_true h).trans (of_decide_eq_true (encoding_matches_row i)).symm

/-- A word that matches an instruction's row decodes to an instruction of that row: the codes that the mask keeps choose
the arm. -/
theorem decode_of_matches {w : Word} {i : Instr} (h : i.row.matchesWord w = true) :
    ∃ j, decode w = .ok j ∧ j.row = i.row := by
  have hmask := masked_eq_of_matches h
  cases i
  case lui =>
    have hop := same_opcode_of_maskU hmask
    exact ⟨_, decode_of_lui (by simpa [encode] using hop), rfl⟩
  case auipc =>
    have hop := same_opcode_of_maskU hmask
    exact ⟨_, decode_of_auipc (by simpa [encode] using hop), rfl⟩
  case jal =>
    have hop := same_opcode_of_maskU hmask
    exact ⟨_, decode_of_jal (by simpa [encode] using hop), rfl⟩
  case jalr =>
    obtain ⟨hop, h3⟩ := same_codes_of_maskI hmask
    simp only [encode, opcodeField_packI, funct3Field_packI] at hop h3
    simp [decode_of_jalr hop, decodeJalr, h3, Instr.row]
  case beq | bne | blt | bge | bltu | bgeu =>
    obtain ⟨hop, h3⟩ := same_codes_of_maskI hmask
    simp only [encode, opcodeField_packB, funct3Field_packB] at hop h3
    simp [decode_of_branch hop, decodeBranch, h3, Instr.row]
  case lb | lh | lw | lbu | lhu =>
    obtain ⟨hop, h3⟩ := same_codes_of_maskI hmask
    simp only [encode, opcodeField_packI, funct3Field_packI] at hop h3
    simp [decode_of_load hop, decodeLoad, h3, Instr.row]
  case sb | sh | sw =>
    obtain ⟨hop, h3⟩ := same_codes_of_maskI hmask
    simp only [encode, opcodeField_packS, funct3Field_packS] at hop h3
    simp [decode_of_store hop, decodeStore, h3, Instr.row]
  case addi | slti | sltiu | xori | ori | andi =>
    obtain ⟨hop, h3⟩ := same_codes_of_maskI hmask
    simp only [encode, opcodeField_packI, funct3Field_packI] at hop h3
    simp [Machine.decode_of_opImm hop, decodeOpImm, h3, Instr.row]
  case slli | srli | srai =>
    obtain ⟨hop, h3, h7⟩ := same_codes_of_maskR hmask
    simp only [encode, opcodeField_packR, funct3Field_packR, funct7Field_packR] at hop h3 h7
    simp [Machine.decode_of_opImm hop, decodeOpImm, h3, h7, Instr.row]
  case add | sub | sll | slt | sltu | xor | srl | sra | or | and =>
    obtain ⟨hop, h3, h7⟩ := same_codes_of_maskR hmask
    simp only [encode, opcodeField_packR, funct3Field_packR, funct7Field_packR] at hop h3 h7
    simp [decode_of_op hop, decodeOp, h3, h7, Instr.row]
  case fence | fenceI =>
    obtain ⟨hop, h3⟩ := same_codes_of_maskI hmask
    simp only [encode, opcodeField_packI, funct3Field_packI] at hop h3
    simp [decode_of_miscMem hop, decodeMiscMem, h3, Instr.row]
  case csrrw | csrrs | csrrc | csrrwi | csrrsi | csrrci =>
    obtain ⟨hop, h3⟩ := same_codes_of_maskI hmask
    simp only [encode, opcodeField_packI, funct3Field_packI] at hop h3
    simp [decode_of_system hop, decodeSystem, h3, Instr.row]
  case ecall | ebreak =>
    obtain rfl : w = _ := of_decide_eq_true h ▸ BitVec.and_allOnes.symm
    exact ⟨_, rfl, rfl⟩

/-- A word that decodes matches the row of what it decodes to. -/
theorem matches_of_decode {w : Word} {i : Instr} (h : decode w = .ok i) : i.row.matchesWord w = true := by
  have he := (encodeGivesBackWhatWasDecoded w i h).1
  exact he ▸ encoding_matches_row i

/-- Settles O4: a word that decodes is the instruction's encoding, which matches its row; the other direction is
`decode_of_matches`. -/
theorem decodeFollowsTheMaskMatchTable : Obligations.DecodeFollowsTheMaskMatchTable := by
  intro w
  refine ⟨fun i h => ⟨row_mem_opcodeRows i, matches_of_decode h⟩, fun r hr hm => ?_⟩
  obtain ⟨i, -, rfl⟩ := List.mem_map.mp hr
  exact decode_of_matches hm

/-- Settles O5: two rows that a word matches are both the row of the one instruction it decodes to. -/
theorem tableRowsArePairwiseDisjoint : Obligations.TableRowsArePairwiseDisjoint := by
  refine ⟨rfl, fun w r hr q hq hrw hqw => ?_⟩
  have hrow := (decodeFollowsTheMaskMatchTable w).2
  obtain ⟨i, hi, rfl⟩ := hrow r hr hrw
  obtain ⟨j, hj, rfl⟩ := hrow q hq hqw
  obtain rfl : i = j := Except.ok.inj (hi.symm.trans hj)
  rfl

/-- Settles O1: the six words are evaluated. -/
theorem workedWordsDecodeAndEncode : Obligations.WorkedWordsDecodeAndEncode := by
  unfold Obligations.WorkedWordsDecodeAndEncode
  decide

end Sys2Proof
end

section
/-! What one instruction can do, said once: `ExecEffect` lists the shapes of the next state, `exec_effect` says that
every instruction's next state has one of them, `step_next` does the same for a whole step. The rules of the whole
machine (traps, memory, `dirty`, registers, pc, device accesses, the invariant) are read off these shapes. -/

namespace Sys2Proof.Machine

/-! ### The meaning of each load, store, transfer and CSR instruction as its shared operation -/

section
variable (rd rs1 rs2 : RegIdx) (imm : BitVec 12) (s : State)

theorem exec_lb : exec (.lb rd rs1 imm) s = loadOp .byte sextByte rd rs1 imm s := rfl
theorem exec_lh : exec (.lh rd rs1 imm) s = loadOp .half sextHalf rd rs1 imm s := rfl
theorem exec_lw : exec (.lw rd rs1 imm) s = loadOp .word id rd rs1 imm s := rfl
theorem exec_lbu : exec (.lbu rd rs1 imm) s = loadOp .byte zextByte rd rs1 imm s := rfl
theorem exec_lhu : exec (.lhu rd rs1 imm) s = loadOp .half zextHalf rd rs1 imm s := rfl

theorem exec_sb : exec (.sb rs2 rs1 imm) s = storeOp .byte rs2 rs1 imm s := rfl
theorem exec_sh : exec (.sh rs2 rs1 imm) s = storeOp .half rs2 rs1 imm s := rfl
theorem exec_sw : exec (.sw rs2 rs1 imm) s = storeOp .word rs2 rs1 imm s := rfl

theorem exec_jal (offset : BitVec 21) : exec (.jal rd offset) s = jumpOp (pcRelative (immJ offset) s) rd s := rfl
theorem exec_jalr : exec (.jalr rd rs1 imm) s = jumpOp (jalrTarget rs1 imm s) rd s := rfl

theorem exec_csrrw (csr : CsrAddr) : exec (.csrrw rd csr rs1) s =
    csrInstr (encode (.csrrw rd csr rs1)) .write (s.reg rs1) (rd != 0) true rd csr s := rfl
theorem exec_csrrs (csr : CsrAddr) : exec (.csrrs rd csr rs1) s =
    csrInstr (encode (.csrrs rd csr rs1)) .set (s.reg rs1) true (rs1 != 0) rd csr s := rfl
theorem exec_csrrc (csr : CsrAddr) : exec (.csrrc rd csr rs1) s =
    csrInstr (encode (.csrrc rd csr rs1)) .clear (s.reg rs1) true (rs1 != 0) rd csr s := rfl
theorem exec_csrrwi (csr : CsrAddr) (uimm : BitVec 5) : exec (.csrrwi rd csr uimm) s =
    csrInstr (encode (.csrrwi rd csr uimm)) .write (uimm5 uimm) (rd != 0) true rd csr s := rfl
theorem exec_csrrsi (csr : CsrAddr) (uimm : BitVec 5) : exec (.csrrsi rd csr uimm) s =
    csrInstr (encode (.csrrsi rd csr uimm)) .set (uimm5 uimm) true (uimm != 0) rd csr s := rfl
theorem exec_csrrci (csr : CsrAddr) (uimm : BitVec 5) : exec (.csrrci rd csr uimm) s =
    csrInstr (encode (.csrrci rd csr uimm)) .clear (uimm5 uimm) true (uimm != 0) rd csr s := rfl

end

/-! ### Every instruction answers (10_state.md section 9) -/

theorem loadOp_answers (n : Size) (extend : Word → Word) (rd rs1 : RegIdx) (imm : BitVec 12) (s : State) :
    ∃ t, loadOp n extend rd rs1 imm s = .next t := by
  unfold loadOp
  cases memRead (effAddr rs1 imm s) n s <;> exact ⟨_, rfl⟩

theorem storeOp_answers (n : Size) (rs2 rs1 : RegIdx) (imm : BitVec 12) (s : State) :
    ∃ t, storeOp n rs2 rs1 imm s = .next t := by
  unfold storeOp
  cases memWrite (effAddr rs1 imm s) n (s.reg rs2) s <;> exact ⟨_, rfl⟩

theorem branchOp_answers (taken : Bool) (offset : BitVec 13) (s : State) : ∃ t, branchOp taken offset s = .next t := by
  unfold branchOp raise
  split
  · split <;> exact ⟨_, rfl⟩
  · exact ⟨_, rfl⟩

theorem jumpOp_answers (target : Word) (rd : RegIdx) (s : State) : ∃ t, jumpOp target rd s = .next t := by
  unfold jumpOp raise
  split <;> exact ⟨_, rfl⟩

theorem csrInstr_answers (inst : Word) (op : CsrOp) (src : Word) (doRead doWrite : Bool) (rd : RegIdx) (c : CsrAddr)
    (s : State) : ∃ t, csrInstr inst op src doRead doWrite rd c s = .next t := by
  rcases csrInstr_cases inst op src doRead doWrite rd c s with ⟨-, -, -, h⟩ | ⟨-, -, h⟩ | ⟨-, h⟩ <;> exact ⟨_, h⟩

/-- Settles O11: each shared operation answers, and the other meanings are one `writeBack`, `raise` or new state. -/
theorem everyInstructionAnswersANextState : Obligations.EveryInstructionAnswersANextState := by
  intro i s
  cases i
  case lb | lh | lw | lbu | lhu => exact loadOp_answers ..
  case sb | sh | sw => exact storeOp_answers ..
  case beq | bne | blt | bge | bltu | bgeu => exact branchOp_answers ..
  case jal | jalr => exact jumpOp_answers ..
  case csrrw => rw [exec_csrrw]; exact csrInstr_answers ..
  case csrrwi => rw [exec_csrrwi]; exact csrInstr_answers ..
  case csrrs | csrrc | csrrsi | csrrci => exact csrInstr_answers ..
  all_goals exact ⟨_, rfl⟩

/-! ### The shapes of the next state -/

/-- The next states `exec i s` can answer. Each shape carries what the rules below need: which instructions have it, the
checks that were passed, and for a transfer that its target is even where pc and the offset are. -/
inductive ExecEffect (i : Instr) (s : State) : State → Prop
  | trap (e : Exn) (cause : e.cause ∈ ownCauses i) (illegal : e.cause = .illegalInstruction → e.value = encode i)
      (handover : isHandover e.cause = true → e.value = 0) : ExecEffect i s (s.takeTrap e)
  | advance (noStore : isStore i = false) (noFenceI : isFenceI i = false) : ExecEffect i s s.advance
  | writeReg (rd : RegIdx) (v : Word) (noStore : isStore i = false) (noFenceI : isFenceI i = false)
      (dest : destOf i = some rd) : ExecEffect i s (s.setReg rd v).advance
  | readCounter (rd : RegIdx) (v : Word) (noStore : isStore i = false) (noFenceI : isFenceI i = false)
      (dest : destOf i = some rd) : ExecEffect i s (({ s with draws := s.draws + 1 } : State).setReg rd v).advance
  | readIo (addr : Word) (n : Size) (rd : RegIdx) (v : Word) (load : isLoad i = true) (noStore : isStore i = false)
      (noFenceI : isFenceI i = false) (dest : destOf i = some rd) :
      ExecEffect i s ((s.ioReadDone addr n).setReg rd v).advance
  | storeMain (addr : Word) (n : Size) (v : Word) (store : isStore i = true) (noFenceI : isFenceI i = false)
      (permit : permitted s.map addr (sizeBytes n) .write = true) (main : kindAt s.map addr = .main) :
      ExecEffect i s (s.mainStore addr n v).advance
  | storeIo (addr : Word) (n : Size) (v : Word) (store : isStore i = true) (noFenceI : isFenceI i = false) :
      ExecEffect i s (s.ioWriteDone addr n v).advance
  | fenceI (noStore : isStore i = false) (fence : isFenceI i = true) : ExecEffect i s { s with dirty := [] }.advance
  | branch (target : Word) (transfer : isTransfer i = true) (noStore : isStore i = false)
      (noFenceI : isFenceI i = false) (bit1 : target.getLsbD 1 = false)
      (bit0 : i.wellFormed = true → s.pc.getLsbD 0 = false → target.getLsbD 0 = false) : ExecEffect i s (s.setPc target)
  | jump (rd : RegIdx) (link target : Word) (transfer : isTransfer i = true) (noStore : isStore i = false)
      (noFenceI : isFenceI i = false) (dest : destOf i = some rd) (bit1 : target.getLsbD 1 = false)
      (bit0 : i.wellFormed = true → s.pc.getLsbD 0 = false → target.getLsbD 0 = false) :
      ExecEffect i s ((s.setReg rd link).setPc target)

section
variable {i : Instr} {s t : State} {rd : RegIdx}

/-- A cause that is neither IllegalInstruction nor a handover carries no rule about its value here. -/
theorem ExecEffect.fault {c : Cause} {v : Word} (hc : c ∈ ownCauses i) (hillegal : c ≠ .illegalInstruction)
    (hhandover : isHandover c = false) : ExecEffect i s (s.takeTrap ⟨c, v⟩) :=
  .trap ⟨c, v⟩ hc (fun h => absurd h hillegal) (fun h => absurd h (by simp [hhandover]))

theorem writeBack_effect {v : Word} (hs : isStore i = false) (hf : isFenceI i = false) (hd : destOf i = some rd)
    (h : writeBack rd v s = .next t) : ExecEffect i s t :=
  writeBack_next h ▸ .writeReg rd v hs hf hd

/-- Bytes are never misaligned (R32). -/
theorem aligned_byte (addr : Word) : aligned addr .byte = true := by
  simp [aligned, sizeBytes, Nat.mod_one]

theorem loadOp_effect {n : Size} {extend : Word → Word} {rs1 : RegIdx} {imm : BitVec 12} (hl : isLoad i = true)
    (hs : isStore i = false) (hf : isFenceI i = false) (hd : destOf i = some rd)
    (hfault : .loadAccessFault ∈ ownCauses i) (hmis : n = .byte ∨ .loadAddressMisaligned ∈ ownCauses i)
    (h : loadOp n extend rd rs1 imm s = .next t) : ExecEffect i s t := by
  rcases loadOp_next h with ⟨ha, rfl⟩ | ⟨-, -, rfl⟩ | ⟨-, -, -, rfl⟩ | ⟨-, -, -, rfl⟩
  · rcases hmis with rfl | hmis
    · rw [aligned_byte] at ha; cases ha
    · exact .fault hmis (by decide) rfl
  · exact .fault hfault (by decide) rfl
  · exact .writeReg _ _ hs hf hd
  · exact .readIo _ _ _ _ hl hs hf hd

theorem storeOp_effect {n : Size} {rs2 rs1 : RegIdx} {imm : BitVec 12} (hs : isStore i = true) (hf : isFenceI i = false)
    (hfault : .storeAccessFault ∈ ownCauses i) (hmis : n = .byte ∨ .storeAddressMisaligned ∈ ownCauses i)
    (h : storeOp n rs2 rs1 imm s = .next t) : ExecEffect i s t := by
  rcases storeOp_next h with ⟨ha, rfl⟩ | ⟨-, -, rfl⟩ | ⟨-, hp, hk, rfl⟩ | ⟨-, -, -, rfl⟩
  · rcases hmis with rfl | hmis
    · rw [aligned_byte] at ha; cases ha
    · exact .fault hmis (by decide) rfl
  · exact .fault hfault (by decide) rfl
  · exact .storeMain _ _ _ hs hf hp hk
  · exact .storeIo _ _ _ hs hf

/-- An even offset keeps an even pc even (R14). -/
theorem pcRelative_even {offset : Word} (ho : offset.getLsbD 0 = false) (hpc : s.pc.getLsbD 0 = false) :
    (pcRelative offset s).getLsbD 0 = false := by
  rw [pcRelative, BitVec.getLsbD_add (by decide), hpc, ho, BitVec.carry_zero]; rfl

/-- Sign extension keeps bit 0 of a field that has one. -/
theorem sext_even {n : Nat} {offset : BitVec n} (hn : 0 < n) (h : offset.getLsbD 0 = false) :
    (sext offset).getLsbD 0 = false := by
  rw [sext, BitVec.getLsbD_signExtend, if_pos hn, h, Bool.and_false]

/-- Bit 0 of JALR's target is cleared (R125). -/
theorem jalrTarget_even (rs1 : RegIdx) (imm : BitVec 12) (s : State) : (jalrTarget rs1 imm s).getLsbD 0 = false := by
  simp [jalrTarget]

theorem branchOp_effect {taken : Bool} {offset : BitVec 13} (ht : isTransfer i = true) (hs : isStore i = false)
    (hf : isFenceI i = false) (hc : .instructionAddressMisaligned ∈ ownCauses i)
    (hw : i.wellFormed = true → offset.getLsbD 0 = false) (h : branchOp taken offset s = .next t) :
    ExecEffect i s t := by
  rcases branchOp_next h with ⟨-, -, rfl⟩ | ⟨-, hb, rfl⟩ | ⟨-, rfl⟩
  · exact .fault hc (by decide) rfl
  · exact .branch _ ht hs hf hb fun hi => pcRelative_even (sext_even (by decide) (hw hi))
  · exact .advance hs hf

theorem jumpOp_effect {target : Word} (ht : isTransfer i = true) (hs : isStore i = false) (hf : isFenceI i = false)
    (hd : destOf i = some rd) (hc : .instructionAddressMisaligned ∈ ownCauses i)
    (hw : i.wellFormed = true → s.pc.getLsbD 0 = false → target.getLsbD 0 = false)
    (h : jumpOp target rd s = .next t) : ExecEffect i s t := by
  rcases jumpOp_next h with ⟨-, rfl⟩ | ⟨hb, rfl⟩
  · exact .fault hc (by decide) rfl
  · exact .jump _ _ _ ht hs hf hd hb hw

theorem csrInstr_effect {op : CsrOp} {src : Word} {doRead doWrite : Bool} {c : CsrAddr} (hs : isStore i = false)
    (hf : isFenceI i = false) (hd : destOf i = some rd)
    (hc : doWrite = true ∨ (doRead = true ∧ isCounter c = false) → .illegalInstruction ∈ ownCauses i)
    (h : csrInstr (encode i) op src doRead doWrite rd c s = .next t) : ExecEffect i s t := by
  rcases csrInstr_cases (encode i) op src doRead doWrite rd c s with ⟨-, -, -, he⟩ | ⟨-, -, he⟩ | ⟨hcond, he⟩ <;>
    obtain rfl := Host.Outcome.next.inj (he.symm.trans h)
  · exact .readCounter _ _ hs hf hd
  · exact .writeReg _ _ hs hf hd
  · exact .trap _ (hc hcond) (fun _ => rfl) (fun h => by cases h)

/-- Everything an instruction can do. -/
theorem exec_effect (h : exec i s = .next t) : ExecEffect i s t := by
  cases i
  case lb | lbu => exact loadOp_effect rfl rfl rfl rfl (by simp [ownCauses]) (.inl rfl) h
  case lh | lhu | lw => exact loadOp_effect rfl rfl rfl rfl (by simp [ownCauses]) (.inr (by simp [ownCauses])) h
  case sb => exact storeOp_effect rfl rfl (by simp [ownCauses]) (.inl rfl) h
  case sh | sw => exact storeOp_effect rfl rfl (by simp [ownCauses]) (.inr (by simp [ownCauses])) h
  case beq | bne | blt | bge | bltu | bgeu =>
    exact branchOp_effect rfl rfl rfl (by simp [ownCauses]) (by simp [Instr.wellFormed]) h
  case jal =>
    exact jumpOp_effect rfl rfl rfl rfl (by simp [ownCauses])
      (fun hw => pcRelative_even (sext_even (by decide) (by simpa [Instr.wellFormed] using hw))) h
  case jalr => exact jumpOp_effect rfl rfl rfl rfl (by simp [ownCauses]) (fun _ _ => jalrTarget_even ..) h
  case csrrw => rw [exec_csrrw] at h; exact csrInstr_effect rfl rfl rfl (by simp [ownCauses]) h
  case csrrwi => rw [exec_csrrwi] at h; exact csrInstr_effect rfl rfl rfl (by simp [ownCauses]) h
  case csrrs | csrrc | csrrsi | csrrci =>
    refine csrInstr_effect rfl rfl rfl (fun hc => ?_) h
    rw [ownCauses, if_neg]
    · exact List.mem_singleton_self _
    · rintro ⟨rfl, hcount⟩; simp [hcount] at hc
  case fence => cases h; exact .advance rfl rfl
  case fenceI => cases h; exact .fenceI rfl rfl
  case ecall | ebreak => cases h; exact .trap _ (by simp [ownCauses]) (fun h => by cases h) (fun _ => rfl)
  all_goals exact writeBack_effect rfl rfl rfl h

/-- FENCE.I raises nothing (R182). -/
theorem ownCauses_of_isFenceI (h : isFenceI i = true) : ownCauses i = [] := by
  cases i
  case fenceI => rfl
  all_goals cases h

/-! ### Rules of one instruction, read off the shapes -/

/-- Settles O22: no shape but a store's changes `mem`. -/
theorem onlyStoresChangeMemory : Obligations.OnlyStoresChangeMemory := by
  intro i s t h hs a
  cases exec_effect h with
  | storeMain _ _ _ store => rw [hs] at store; cases store
  | trap | advance | writeReg | readCounter | readIo | storeIo | fenceI | branch | jump => simp [State.byteAt]

/-- Settles O23: a store to main memory marks its bytes, FENCE.I empties `dirty`, no other shape touches it. -/
theorem dirtyGrowsByStoresAndEmptiesByFenceI : Obligations.DirtyGrowsByStoresAndEmptiesByFenceI := by
  intro i s t h
  cases exec_effect h with
  | trap e cause =>
    refine ⟨fun _ _ => rfl, fun _ _ ha => ha, fun hf => ?_⟩
    rw [ownCauses_of_isFenceI hf] at cause
    cases cause
  | storeMain _ _ _ store noFenceI =>
    refine ⟨fun hs => ?_, fun _ a ha => mem_markDirty.mpr (.inl ha), fun hf => ?_⟩
    · rw [hs] at store; cases store
    · rw [hf] at noFenceI; cases noFenceI
  | storeIo _ _ _ _ noFenceI => simp [noFenceI]
  | fenceI noStore fence => simp [noStore, fence]
  | advance noStore noFenceI | writeReg _ _ noStore noFenceI | readCounter _ _ noStore noFenceI
  | readIo _ _ _ _ _ noStore noFenceI | branch _ _ noStore noFenceI | jump _ _ _ _ noStore noFenceI =>
    simp [noStore, noFenceI]

/-- Settles O24: the shapes that write a register write the one `destOf` names. -/
theorem onlyTheNamedDestinationChanges : Obligations.OnlyTheNamedDestinationChanges := by
  intro i s t r h hr
  have hne : ∀ {rd}, destOf i = some rd → r ≠ rd := fun hd he => hr (he ▸ hd)
  cases exec_effect h with
  | writeReg _ _ _ _ dest | readCounter _ _ _ _ dest | readIo _ _ _ _ _ _ _ dest =>
    exact State.reg_setReg_ne _ _ (hne dest)
  | jump _ _ _ _ _ _ dest => exact State.reg_setReg_ne _ _ (hne dest)
  | trap | advance | storeMain | storeIo | fenceI | branch => rfl

/-- Settles O25: every shape but a trap's and a transfer's ends with `advance`. -/
theorem pcAdvancesByFourOutsideTransfers : Obligations.PcAdvancesByFourOutsideTransfers := by
  intro i s t h ht htr
  cases exec_effect h with
  | trap => cases ht
  | branch _ transfer | jump _ _ _ transfer => rw [htr] at transfer; cases transfer
  | advance | writeReg | readCounter | readIo | storeMain | storeIo | fenceI => simp

/-- Settles O26: a device access is appended by the shapes `readIo` and `storeIo` alone. -/
theorem deviceAccessesAreMadeOnceInOrder : Obligations.DeviceAccessesAreMadeOnceInOrder := by
  intro i s t h
  cases exec_effect h with
  | readIo _ _ _ _ load => exact .inr ⟨.inl load, _, State.setReg_io ..⟩
  | storeIo _ _ _ store => exact .inr ⟨.inr store, _, rfl⟩
  | trap | advance | writeReg | readCounter | storeMain | fenceI | branch | jump => exact .inl (by simp)

/-- No instruction changes the map (R37). -/
theorem exec_map (h : exec i s = .next t) : t.map = s.map := by
  cases exec_effect h <;> simp

/-- A trap that an instruction records is the shape `trap`. -/
theorem exec_trap {tr : Trap} (hs : s.trap = none) (h : exec i s = .next t) (ht : t.trap = some tr) :
    t = { s with trap := some tr } ∧ tr.pc = s.pc ∧ tr.cause ∈ ownCauses i ∧
      (tr.cause = .illegalInstruction → tr.value = encode i) ∧ (isHandover tr.cause = true → tr.value = 0) := by
  cases exec_effect h with
  | trap e cause illegal handover =>
    obtain rfl := Option.some.inj ht
    exact ⟨rfl, rfl, cause, illegal, handover⟩
  | advance | writeReg | readCounter | readIo | storeMain | storeIo | fenceI | branch | jump => simp [hs] at ht

/-- Settles O15: `exec_trap` says where the cause comes from. -/
theorem instructionsRaiseOnlyTheirOwnCauses : Obligations.InstructionsRaiseOnlyTheirOwnCauses := by
  intro i s t tr hs h ht
  obtain ⟨-, -, hcause, -⟩ := exec_trap hs h ht
  exact hcause

/-! ### One step (R7) -/

/-- A step of a running state answers or refuses: the cases of `hartStep_cases`, with the fetched word as the encoding
of the instruction it decodes to. -/
theorem step_cases (hs : s.trap = none) :
    (∃ e, step s = .next (s.takeTrap e) ∧ isHandover e.cause = false ∧
      (e.cause = .illegalInstruction → e.value = s.mainValue s.pc .word)) ∨
    (pcAligned s ∧ isStale s.dirty s.pc = true ∧ step s = .refused (.staleFetch s.pc)) ∨
    (∃ i, Fetches s (encode i) ∧ i.wellFormed = true ∧ step s = exec i s) := by
  rcases hartStep_cases s with ⟨tr, htr, -⟩ | ⟨-, -, h⟩ | ⟨-, -, -, h⟩ | ⟨-, ha, -, hd, h⟩ | ⟨w, c, hf, -, h⟩ |
    ⟨w, i, hf, hi, h⟩
  · rw [hs] at htr; cases htr
  · exact .inl ⟨_, h, rfl, fun hc => by cases hc⟩
  · exact .inl ⟨_, h, rfl, fun hc => by cases hc⟩
  · exact .inr (.inl ⟨ha, hd, h⟩)
  · exact .inl ⟨_, h, rfl, fun _ => hf.word.symm⟩
  · obtain ⟨rfl, hw⟩ := encodeGivesBackWhatWasDecoded w i hi
    exact .inr (.inr ⟨i, hf, hw, h⟩)

/-- A state that holds a trap does not step on. -/
theorem trap_none_of_step (h : step s = .next t) : s.trap = none := by
  rcases hartStep_cases s with ⟨tr, -, he⟩ | ⟨hs, -⟩ | ⟨hs, -⟩ | ⟨hs, -⟩ | ⟨w, c, hf, -⟩ | ⟨w, i, hf, -⟩
  · cases he.symm.trans h
  · exact hs
  · exact hs
  · exact hs
  · exact hf.running
  · exact hf.running

/-- Everything a step that answers can do: trap before the instruction runs, or run it. -/
theorem step_next (h : step s = .next t) :
    (∃ e, t = s.takeTrap e ∧ isHandover e.cause = false ∧
      (e.cause = .illegalInstruction → e.value = s.mainValue s.pc .word)) ∨
    (∃ i, Fetches s (encode i) ∧ i.wellFormed = true ∧ exec i s = .next t) := by
  rcases step_cases (trap_none_of_step h) with ⟨e, he, hrest⟩ | ⟨-, -, he⟩ | ⟨i, hf, hw, he⟩
  · exact .inl ⟨e, Host.Outcome.next.inj (h.symm.trans he), hrest⟩
  · cases he.symm.trans h
  · exact .inr ⟨i, hf, hw, he.symm.trans h⟩

/-- Settles O12: the first of `step`'s checks. -/
theorem recordedTrapEndsTheRun : Obligations.RecordedTrapEndsTheRun := by
  intro s tr h
  rw [step, hartStep, h]

/-- Settles O10: `exec` always answers, and the fetch refuses with StaleFetch alone. -/
theorem stepYieldsNextOrStaleFetch : Obligations.StepYieldsNextOrStaleFetch := by
  intro s hs
  rcases step_cases hs with ⟨e, he, -⟩ | ⟨-, -, he⟩ | ⟨i, -, -, he⟩
  · exact .inl ⟨_, he⟩
  · exact .inr he
  · exact .inl (he ▸ everyInstructionAnswersANextState i s)

/-- Settles O21: a trap is recorded in the same map, and no instruction changes it. -/
theorem noStepChangesTheMap : Obligations.NoStepChangesTheMap := by
  intro s t h
  rcases step_next h with ⟨e, rfl, -⟩ | ⟨i, -, -, he⟩
  · rfl
  · exact exec_map he

/-! ### Traps (R183 to R186) -/

/-- Settles O14: before the instruction runs and in it, a trap is the state before with the record. -/
theorem trapsArePrecise : Obligations.TrapsArePrecise := by
  intro s t tr h ht
  have hs := trap_none_of_step h
  rcases step_next h with ⟨e, rfl, -⟩ | ⟨i, -, -, he⟩
  · obtain rfl := Option.some.inj ht
    exact ⟨hs, rfl, rfl⟩
  · obtain ⟨hstate, hpc, -⟩ := exec_trap hs he ht
    exact ⟨hs, hpc, hstate⟩

/-- Settles O16: the fetched word is the encoding of the instruction that runs, which is what a CSR instruction
records. -/
theorem illegalInstructionRecordsTheFetchedWord : Obligations.IllegalInstructionRecordsTheFetchedWord := by
  intro s t tr h ht hc
  rcases step_next h with ⟨e, rfl, -, hvalue⟩ | ⟨i, hf, -, he⟩
  · obtain rfl := Option.some.inj ht
    exact hvalue hc
  · obtain ⟨-, -, -, hillegal, -⟩ := exec_trap (trap_none_of_step h) he ht
    exact (hillegal hc).trans hf.word.symm

/-- No other instruction than ECALL and EBREAK lists a handover cause (R182). -/
theorem ownCauses_without_handover (h1 : i ≠ .ecall) (h2 : i ≠ .ebreak) :
    (ownCauses i).all (fun c => !isHandover c) = true := by
  cases i
  case ecall => exact absurd rfl h1
  case ebreak => exact absurd rfl h2
  case csrrs | csrrc | csrrsi | csrrci => rw [ownCauses]; split <;> rfl
  all_goals rfl

/-- A handover cause tells which of the two instructions raised it. -/
theorem handover_cases {c : Cause} (hc : c ∈ ownCauses i) (hh : isHandover c = true) :
    (i = .ecall ∧ c = .environmentCall) ∨ (i = .ebreak ∧ c = .breakpoint) := by
  by_cases h1 : i = .ecall
  · subst h1; exact .inl ⟨rfl, List.mem_singleton.mp hc⟩
  by_cases h2 : i = .ebreak
  · subst h2; exact .inr ⟨rfl, List.mem_singleton.mp hc⟩
  have hno := List.all_eq_true.mp (ownCauses_without_handover h1 h2) c hc
  rw [hh] at hno; cases hno

/-- Settles O17: the trap comes from the instruction, its cause from ECALL or EBREAK, and the word at pc is theirs. -/
theorem onlyEcallAndEbreakCompleteARun : Obligations.OnlyEcallAndEbreakCompleteARun := by
  intro s t h hdone
  obtain ⟨tr, ht, hh⟩ : ∃ tr, t.trap = some tr ∧ isHandover tr.cause = true := by
    simpa [State.completed, Option.any_eq_true] using hdone
  rcases step_next h with ⟨e, rfl, hno, -⟩ | ⟨i, hf, -, he⟩
  · obtain rfl := Option.some.inj ht
    rw [hno] at hh; cases hh
  · obtain ⟨-, hpc, hcause, -, hvalue⟩ := exec_trap (trap_none_of_step h) he ht
    obtain ⟨c, v, p⟩ := tr
    obtain rfl : p = s.pc := hpc
    obtain rfl : v = 0 := hvalue hh
    rcases handover_cases hcause hh with ⟨rfl, rfl⟩ | ⟨rfl, rfl⟩
    · exact .inl ⟨hf.word, ht⟩
    · exact .inr ⟨hf.word, ht⟩

end

end Sys2Proof.Machine
end

section
/-! One step (R7, R184): each of its checks as an equation, the traps they take, and the placement of a word where the
next step fetches it. -/

namespace Sys2Proof.Machine

/-- Taking a trap records it and changes nothing else (R185, R186). -/
theorem takeTrap_traps (s : State) (e : Exn) : Traps s (s.takeTrap e) e.cause e.value where
  record := rfl
  regs _ := rfl
  pc := rfl
  bytes _ := rfl
  dirty := rfl
  map := rfl
  draws := rfl
  io := rfl

/-- An outcome that takes a trap, as the statements put it. -/
theorem traps_of_eq_takeTrap {o : Result} {s : State} {e : Exn} (h : o = .next (s.takeTrap e)) :
    ∃ t, o = .next t ∧ Traps s t e.cause e.value :=
  ⟨_, h, takeTrap_traps s e⟩

/-! ### The checks of a step, in their order (R184) -/

section
variable {s : State} {w : Word}

theorem step_of_misaligned (hs : s.trap = none) (ha : ¬ pcAligned s) :
    step s = .next (s.takeTrap ⟨.instructionAddressMisaligned, s.pc⟩) := by
  have ha' : s.pc.extractLsb' 0 2 ≠ 0#2 := ha
  simp only [step, hartStep, hs, if_pos ha', raise]

theorem step_of_not_executable (hs : s.trap = none) (ha : pcAligned s) (hx : permitted s.map s.pc 4 .execute = false) :
    step s = .next (s.takeTrap ⟨.instructionAccessFault, s.pc⟩) := by
  have ha' : s.pc.extractLsb' 0 2 = 0#2 := ha
  simp [step, hartStep, hs, ha', fetch, hx, raise]

theorem step_of_stale (hs : s.trap = none) (ha : pcAligned s) (hx : permitted s.map s.pc 4 .execute = true)
    (hd : isStale s.dirty s.pc = true) : step s = .refused (.staleFetch s.pc) := by
  have ha' : s.pc.extractLsb' 0 2 = 0#2 := ha
  simp [step, hartStep, hs, ha', fetch, hx, hd]

theorem fetch_of_fetches (hf : Fetches s w) : fetch s.pc s = .word w := by
  simp [fetch, hf.executable, hf.clean, hf.word]

theorem step_of_decode_error {c : IllegalClass} (hf : Fetches s w) (hw : decode w = .error c) :
    step s = .next (s.takeTrap ⟨.illegalInstruction, w⟩) := by
  have ha : s.pc.extractLsb' 0 2 = 0#2 := hf.aligned
  simp [step, hartStep, hf.running, ha, fetch_of_fetches hf, hw, raise]

theorem step_of_decode_ok {i : Instr} (hf : Fetches s w) (hw : decode w = .ok i) : step s = exec i s := by
  have ha : s.pc.extractLsb' 0 2 = 0#2 := hf.aligned
  simp [step, hartStep, hf.running, ha, fetch_of_fetches hf, hw]

end

/-- Settles O6. -/
theorem stepRunsTheDecodedInstruction : Obligations.StepRunsTheDecodedInstruction :=
  fun _ _ _ => step_of_decode_ok

/-- Settles O9: the first check that fails decides. -/
theorem fetchChecksComeInOrder : Obligations.FetchChecksComeInOrder := by
  intro s hs
  refine ⟨fun ha => ?_, fun ha hx => ?_, fun ha hx hd => ?_⟩
  · exact traps_of_eq_takeTrap (step_of_misaligned hs ha)
  · exact traps_of_eq_takeTrap (step_of_not_executable hs ha hx)
  · exact step_of_stale hs ha hx (isStale_iff.mpr hd)

/-- Settles O7: a word that decoded would match the row of what it decodes to. -/
theorem unmatchedWordRaisesIllegalInstruction : Obligations.UnmatchedWordRaisesIllegalInstruction := by
  intro s w hf hno
  cases hw : decode w with
  | error c => exact traps_of_eq_takeTrap (step_of_decode_error hf hw)
  | ok i =>
    have hm := hno i.row (row_mem_opcodeRows i)
    rw [matches_of_decode hw] at hm
    cases hm

/-- A SYSTEM word with `funct3` 000 that is neither ECALL nor EBREAK is no instruction (R63, R68). -/
theorem decode_of_system_zero {w : Word} (hop : opcodeField w = 0b1110011#7) (h3 : funct3Field w = 0b000#3)
    (hecall : w ≠ 0x00000073#32) (hebreak : w ≠ 0x00100073#32) : decode w = .error .system := by
  rw [decode_of_system hop, decodeSystem, h3]
  simp [hecall, hebreak]

/-- SFENCE.VMA's `funct7` tells it from ECALL and EBREAK (R68). -/
theorem decode_sfenceVma (rs2 rs1 rd : RegIdx) :
    decode (packR 0b0001001#7 rs2 rs1 0b000#3 rd 0b1110011#7) = .error .system := by
  have h7 := funct7Field_packR 0b0001001#7 rs2 rs1 0b000#3 rd 0b1110011#7
  refine decode_of_system_zero (by simp) (by simp) (fun h => ?_) (fun h => ?_) <;>
  · rw [h] at h7; revert h7; decide

/-- Settles O8: each of the words is a SYSTEM word with `funct3` 000, and no ECALL or EBREAK. -/
theorem privilegedWordsRaiseIllegalInstruction : Obligations.PrivilegedWordsRaiseIllegalInstruction := by
  intro s w hf hw
  suffices hd : decode w = .error .system from traps_of_eq_takeTrap (step_of_decode_error hf hd)
  rcases hw with rfl | rfl | rfl | rfl | ⟨rs2, rs1, rd, rfl⟩
  · decide
  · decide
  · decide
  · decide
  · exact decode_sfenceVma rs2 rs1 rd

/-! ### The placement of a word (log entry 8) -/

/-- The low two bits of a word are its value modulo 4. -/
theorem extractLsb'_two_eq_zero_iff (w : Word) : w.extractLsb' 0 2 = 0#2 ↔ w.toNat % 4 = 0 := by
  simp [BitVec.toNat_eq]

theorem alignedPc_aligned (pc : Word) : (alignedPc pc).extractLsb' 0 2 = 0#2 := by
  apply BitVec.eq_of_getLsbD_eq
  intro i hi
  rw [BitVec.getLsbD_extractLsb']
  interval_cases i <;> simp [alignedPc]

/-- `fetchableMap` lets the four bytes be fetched, in the map itself or in the region it puts in front. -/
theorem permitted_fetchableMap (m : Config.MemMap) {pc : Word} (hpc : pc.toNat % 4 = 0) :
    permitted (fetchableMap m pc) pc 4 .execute = true := by
  unfold fetchableMap
  split
  · assumption
  · have hattr : ∀ k, k < 4 →
        mapAttr (⟨pc.toNat, 4, .main true true true⟩ :: m) (byteAddr pc k).toNat = .main true true true := by
      intro k hk
      rw [byteAddr_toNat (.inr (.inr rfl)) hpc hk]
      simp [mapAttr, regionHas, hk]
    have h0 := hattr 0 (by decide)
    rw [show byteAddr pc 0 = pc from by simp [byteAddr]] at h0
    refine permitted_iff.mpr ⟨by simp [kindAt, h0, attrKind], fun k hk => ?_⟩
    simp [kindAt, allowsAt, hattr k hk, h0, attrKind, attrAllows]

/-- Four bytes in memory that are a word's bytes, lowest first, make the word (R30). -/
theorem mainValue_eq_of_bytes {s : State} {addr w : Word} (h : ∀ k, k < 4 → s.byteAt (byteAddr addr k) = wordByte w k) :
    s.mainValue addr .word = w := by
  simp only [State.mainValue, assemble, h 0 (by decide), h 1 (by decide), h 2 (by decide), h 3 (by decide),
    leWord_wordByte]

/-- The state with `w` placed fetches `w` next. -/
theorem placeWord_fetches {s : State} (hm : s.mem.wf) (w : Word) : Fetches (placeWord w s) w := by
  have hpc : (alignedPc s.pc).toNat % 4 = 0 := (extractLsb'_two_eq_zero_iff _).mp (alignedPc_aligned s.pc)
  refine ⟨rfl, alignedPc_aligned s.pc, permitted_fetchableMap _ hpc, ?_, ?_⟩
  · rw [Bool.eq_false_iff, ne_eq, isStale_iff]
    rintro ⟨k, hk, hmem⟩
    have hadd : (byteAddr (alignedPc s.pc) k).toNat = _ := byteAddr_toNat (.inr (.inr rfl)) hpc hk
    simp [placeWord, hadd, hk] at hmem
  · have hread : ∀ k, k < 4 → (placeWord w s).byteAt (byteAddr (alignedPc s.pc) k) = wordByte w k := fun k hk =>
      read_storeBytes_self hm (alignedPc s.pc) w (by decide) hk
    exact mainValue_eq_of_bytes hread

/-- A table row of 32 bits numbers the word itself. -/
theorem tableWord_toNat (w : Word) : tableWord 32 w.toNat = w := by
  rw [tableWord, Nat.mod_eq_of_lt w.isLt, BitVec.ofNat_toNat, BitVec.setWidth_eq]

/-- Settles O13: the placed word is fetched, and decodes to the instruction it encodes. -/
theorem placedInstructionRunsNext : Obligations.PlacedInstructionRunsNext := by
  intro s i hm hi
  rw [State.withFetchWord, tableWord_toNat]
  exact step_of_decode_ok (placeWord_fetches hm (encode i)) (decodeGivesBackWhatWasEncoded i hi)

end Sys2Proof.Machine
end

section
/-! The invariant: what keeps it, one lemma per way a step changes the state, and the statements that it holds at a
launch and after every step. -/

namespace Sys2Proof.Machine

/-! ### Alignment of pc (R15) -/

/-- `pc` is aligned when its two low bits are clear. -/
theorem lowBits_eq_zero_iff (w : Word) : w.extractLsb' 0 2 = 0#2 ↔ w.getLsbD 0 = false ∧ w.getLsbD 1 = false := by
  refine ⟨fun h => ?_, fun ⟨h0, h1⟩ => ?_⟩
  · have hbit : ∀ k, k < 2 → (w.extractLsb' 0 2).getLsbD k = w.getLsbD k := fun k hk => by
      rw [BitVec.getLsbD_extractLsb', decide_eq_true hk, Bool.true_and, Nat.zero_add]
    exact ⟨by rw [← hbit 0 (by decide), h]; rfl, by rw [← hbit 1 (by decide), h]; rfl⟩
  · apply BitVec.eq_of_getLsbD_eq
    intro k hk
    rw [BitVec.getLsbD_extractLsb']
    interval_cases k
    · rw [h0]; rfl
    · rw [h1]; rfl

/-- Four more is aligned again, also past the last word (R14). -/
theorem pcAligned_advance {s : State} (h : pcAligned s) : pcAligned s.advance := by
  have hmod := (extractLsb'_two_eq_zero_iff s.pc).mp h
  refine (extractLsb'_two_eq_zero_iff _).mpr ?_
  have h4 : (4 : Word).toNat = 4 := rfl
  rw [State.advance_pc, BitVec.toNat_add, h4]
  omega

/-! ### What keeps the invariant -/

section
variable {s t : State}

/-- A state that leaves memory and the map as they are, takes nothing new into `dirty` and records no trap keeps the
invariant if its pc is aligned. -/
theorem State.Inv.of_frame (h : s.Inv) (hpc : pcAligned t) (hmem : t.mem = s.mem) (hdirty : t.dirty.Sublist s.dirty)
    (hmap : t.map = s.map) (htrap : t.trap = none) : t.Inv where
  aligned := hpc
  canonical := hmem ▸ h.canonical
  inMain c hc := by rw [hmap]; exact h.inMain c (hmem ▸ hc)
  dirtyMain := by
    obtain ⟨hrising, hmain⟩ := h.dirtyMain
    exact ⟨hrising.sublist hdirty, fun a ha => hmap ▸ hmain a (hdirty.subset ha)⟩
  trapPc tr htr := by rw [htrap] at htr; cases htr

/-- A trap names the pc the state stands at (R186). -/
theorem State.Inv.takeTrap (h : s.Inv) (e : Exn) : (s.takeTrap e).Inv where
  aligned := h.aligned
  canonical := h.canonical
  inMain := h.inMain
  dirtyMain := h.dirtyMain
  trapPc tr htr := by obtain rfl := Option.some.inj htr; rfl

/-- The bytes of a permitted access lie where its first byte lies (R38). -/
theorem attrKind_of_permitted {m : Config.MemMap} {addr : Word} {n k : Nat} {op : Config.Access}
    (hp : permitted m addr n op = true) (hmain : kindAt m addr = .main) (hk : k < n) :
    attrKind (mapAttr m (byteAddr addr k).toNat) = .main :=
  ((permitted_iff.mp hp).2 k hk).1.trans hmain

/-- A permitted store to main memory stores and marks main addresses (R34). -/
theorem State.Inv.mainStore (h : s.Inv) (hs : s.trap = none) {addr : Word} {n : Size} {v : Word}
    (hp : permitted s.map addr (sizeBytes n) .write = true) (hmain : kindAt s.map addr = .main) :
    (s.mainStore addr n v).advance.Inv where
  aligned := pcAligned_advance h.aligned
  canonical := storeBytes_wf h.canonical ..
  inMain c hc := by
    rcases mem_storeBytes hc with hc | ⟨-, k, hk, he⟩
    · exact h.inMain c hc
    · exact he ▸ attrKind_of_permitted hp hmain hk
  dirtyMain := by
    obtain ⟨hrising, hdirty⟩ := h.dirtyMain
    refine ⟨markDirty_rising hrising .., fun a ha => ?_⟩
    rcases mem_markDirty.mp ha with ha | ⟨k, hk, rfl⟩
    · exact hdirty a ha
    · exact ⟨(byteAddr addr k).isLt, attrKind_of_permitted hp hmain hk⟩
  trapPc tr htr := by cases hs.symm.trans htr

/-- Every instruction with an encoding keeps the invariant of a running state. -/
theorem State.Inv.exec {i : Instr} (h : s.Inv) (hs : s.trap = none) (hw : i.wellFormed = true)
    (he : exec i s = .next t) : t.Inv := by
  obtain ⟨hbit0, -⟩ := (lowBits_eq_zero_iff s.pc).mp h.aligned
  have hadv := pcAligned_advance h.aligned
  cases exec_effect he with
  | trap e => exact h.takeTrap e
  | advance => exact h.of_frame hadv rfl (List.Sublist.refl _) rfl hs
  | storeIo => exact h.of_frame hadv rfl (List.Sublist.refl _) rfl hs
  | fenceI => exact h.of_frame hadv rfl (List.nil_sublist _) rfl hs
  | writeReg | readCounter | readIo =>
    exact h.of_frame (by simpa [pcAligned] using hadv) (by simp) (by simp) (by simp) (by simpa using hs)
  | storeMain _ _ _ _ _ permit main => exact h.mainStore hs permit main
  | branch target _ _ _ bit1 bit0 =>
    exact h.of_frame ((lowBits_eq_zero_iff target).mpr ⟨bit0 hw hbit0, bit1⟩) rfl (List.Sublist.refl _) rfl hs
  | jump _ _ target _ _ _ _ bit1 bit0 =>
    exact h.of_frame ((lowBits_eq_zero_iff target).mpr ⟨bit0 hw hbit0, bit1⟩) (by simp) (by simp) (by simp)
      (by simpa using hs)

end

/-- Settles O18: a step takes a trap or runs an instruction that decodes, so is well-formed. -/
theorem everyStepKeepsTheInvariant : Obligations.EveryStepKeepsTheInvariant := by
  intro s t h hstep
  rcases step_next hstep with ⟨e, rfl, -⟩ | ⟨i, hf, hw, he⟩
  · exact h.takeTrap e
  · exact h.exec hf.running hw he

/-- Settles O20: the launch gives the aligned entry and the canonical memory, `dirty` is empty and no trap recorded. -/
theorem launchMeetsTheInvariant : Obligations.LaunchMeetsTheInvariant := by
  intro l halign hwf hmain
  exact
    { aligned := halign
      canonical := hwf
      inMain := hmain
      dirtyMain := ⟨List.Pairwise.nil, fun a ha => by cases ha⟩
      trapPc := fun tr htr => by cases htr }

/-- Settles O53: the launch's fields are the state's; reset is the launch with the model's own values. -/
theorem launchStateHoldsWhatTheLaunchGives : Obligations.LaunchStateHoldsWhatTheLaunchGives := by
  refine ⟨fun l r => ⟨?_, rfl, fun _ => rfl, rfl, rfl, rfl⟩, rfl⟩
  by_cases hr : r = 0 <;> simp [State.reg, State.launch, hr]

/-- Settles O19: reset is a launch with an aligned entry and nothing listed in memory. -/
theorem resetMeetsTheInvariant : Obligations.ResetMeetsTheInvariant := by
  rw [Obligations.ResetMeetsTheInvariant, launchStateHoldsWhatTheLaunchGives.2]
  exact launchMeetsTheInvariant _ rfl ⟨List.Pairwise.nil, fun c hc => by cases hc⟩ (fun c hc => by cases hc)

end Sys2Proof.Machine
end

section
/-! Registers and memory as data (R11, R23): what reads as written, the canonical form under a write, and that canonical
memories are determined by what they read as. -/

namespace Sys2Proof.Machine

/-- Settles O27. -/
theorem registerReadsWhatWasWritten : Obligations.RegisterReadsWhatWasWritten :=
  fun s rd r v => State.reg_setReg s rd r v

/-- Settles O28: the two laws of `Memory.write`. -/
theorem byteReadsWhatWasWritten : Obligations.ByteReadsWhatWasWritten := by
  intro m a b v hm
  split
  · next hb => subst hb; exact Memory.read_write_self hm b v
  · next hb => exact Memory.read_write_ne m v hb

/-- Settles O29: the addresses stay rising, and what is listed new is the address and the byte written. -/
theorem memoryWriteKeepsTheCanonicalForm : Obligations.MemoryWriteKeepsTheCanonicalForm := by
  intro m a v ⟨hrising, hlisted⟩ ha
  refine ⟨Memory.write_rising hrising a v, fun c hc => ?_⟩
  rcases Memory.mem_write hc with hc | ⟨rfl, hv⟩
  · exact hlisted c hc
  · exact ⟨ha, hv⟩

/-- The head of a canonical memory reads as the byte listed, which is not what an unlisted address reads as. -/
theorem Memory.read_head {k : Nat} {v : Byte} {m : Memory} (h : Memory.wf ((k, v) :: m)) :
    Memory.read ((k, v) :: m) k = v ∧ v ≠ unlistedByte :=
  ⟨by simp [Memory.read], (h.2 _ (List.mem_cons_self ..)).2⟩

/-- Two canonical memories that read the same list no address below the other's first. -/
theorem Memory.head_le_of_read_eq {k j : Nat} {v u : Byte} {m n : Memory} (hm : Memory.wf ((k, v) :: m))
    (hn : Memory.wf ((j, u) :: n)) (h : ∀ a, Memory.read ((k, v) :: m) a = Memory.read ((j, u) :: n) a) : j ≤ k := by
  by_contra hlt
  obtain ⟨hread, hv⟩ := Memory.read_head hm
  have hbelow : Memory.read ((j, u) :: n) k = unlistedByte := by
    refine Memory.read_below fun c hc => ?_
    rcases List.mem_cons.mp hc with rfl | hc
    · exact Nat.lt_of_not_le hlt
    · exact Nat.lt_trans (Nat.lt_of_not_le hlt) (Memory.head_lt hn c hc)
  exact hv (hread.symm.trans ((h k).trans hbelow))

/-- Settles O30, by induction on the two lists: the heads agree, and below its tail's first address a memory reads as
unlisted. -/
theorem equalBytesMeanEqualMemories : Obligations.EqualBytesMeanEqualMemories := by
  intro m
  induction m with
  | nil =>
    intro n _ hn h
    cases n with
    | nil => rfl
    | cons d n =>
      obtain ⟨hread, hu⟩ := Memory.read_head hn
      exact absurd (hread.symm.trans (h d.1).symm) hu
  | cons c m ih =>
    intro n hm hn h
    obtain ⟨k, v⟩ := c
    cases n with
    | nil =>
      obtain ⟨hread, hv⟩ := Memory.read_head hm
      exact absurd (hread.symm.trans (h k)) hv
    | cons d n =>
      obtain ⟨j, u⟩ := d
      obtain rfl : k = j := Nat.le_antisymm (Memory.head_le_of_read_eq hn hm fun a => (h a).symm)
        (Memory.head_le_of_read_eq hm hn h)
      obtain rfl : v = u := (Memory.read_head hm).1.symm.trans ((h k).trans (Memory.read_head hn).1)
      have htail : ∀ a, Memory.read m a = Memory.read n a := by
        intro a
        by_cases ha : a = k
        · subst ha
          rw [Memory.read_below (Memory.head_lt hm), Memory.read_below (Memory.head_lt hn)]
        · simpa [Memory.read, ha] using h a
      rw [ih n (Memory.wf_tail hm) (Memory.wf_tail hn) htail]

end Sys2Proof.Machine
end

section
/-! Loads (R100 to R106) and stores (R155 to R159): the outcomes of `loadOp` and `storeOp` one by one, the values they
move, and from these the statements of the two families and of a store read back. -/

namespace Sys2Proof.Machine

/-! ### Addresses and alignment -/

theorem aligned_iff {addr : Word} {n : Size} : aligned addr n = true ↔ addr.toNat % sizeBytes n = 0 := by
  simp [aligned]

theorem aligned_of_mod {addr : Word} {n : Size} (h : addr.toNat % sizeBytes n = 0) : aligned addr n = true :=
  aligned_iff.mpr h

theorem not_aligned_of_mod {addr : Word} {n : Size} (h : addr.toNat % sizeBytes n ≠ 0) : aligned addr n = false := by
  rwa [← Bool.not_eq_true, aligned_iff]

@[simp] theorem byteAddr_zero (addr : Word) : byteAddr addr 0 = addr := by simp [byteAddr]

/-! ### The outcomes of a load (R100) -/

section
variable {i : Instr} {n : Size} {extend : Word → Word} {rd rs1 : RegIdx} {imm : BitVec 12} {s : State}

theorem load_main {v : Word} (hi : exec i s = loadOp n extend rd rs1 imm s) (ha : aligned (effAddr rs1 imm s) n = true)
    (hk : kindAt s.map (effAddr rs1 imm s) = .main)
    (hp : permitted s.map (effAddr rs1 imm s) (sizeBytes n) .read = true)
    (hv : extend (s.mainValue (effAddr rs1 imm s) n) = v) :
    ∃ t, exec i s = .next t ∧ WritesReg s t rd v (s.pc + 4) := by
  apply exec_writesReg
  rw [hi, loadOp, ← hv]
  simp [memRead, ha, hk, hp]

/-- After a device read the draws and the accesses have grown by one each, and `rd` holds the value. -/
theorem loadsIo_ioReadDone (addr : Word) (n : Size) (rd : RegIdx) (v : Word) (s : State) :
    LoadsIo s ((s.ioReadDone addr n).setReg rd v).advance rd v (.read addr (sizeBytes n) (s.ioValue addr n)) where
  regs r := State.reg_setReg (s.ioReadDone addr n) rd r v
  pc := by simp
  bytes a := by simp
  dirty := by simp
  trap := by simp
  map := by simp
  draws := by simp
  io := by simp

theorem load_io {v w : Word} (hi : exec i s = loadOp n extend rd rs1 imm s) (ha : aligned (effAddr rs1 imm s) n = true)
    (hk : kindAt s.map (effAddr rs1 imm s) = .io)
    (hp : permitted s.map (effAddr rs1 imm s) (sizeBytes n) .read = true)
    (hw : s.ioValue (effAddr rs1 imm s) n = w) (hv : extend w = v) :
    ∃ t, exec i s = .next t ∧ LoadsIo s t rd v (.read (effAddr rs1 imm s) (sizeBytes n) w) := by
  subst hw hv
  refine ⟨_, ?_, loadsIo_ioReadDone (effAddr rs1 imm s) n rd _ s⟩
  rw [hi, loadOp]
  simp [memRead, ha, hk, hp, writeBack]

theorem load_not_permitted (hi : exec i s = loadOp n extend rd rs1 imm s)
    (ha : aligned (effAddr rs1 imm s) n = true)
    (hp : permitted s.map (effAddr rs1 imm s) (sizeBytes n) .read = false) :
    ∃ t, exec i s = .next t ∧ Traps s t .loadAccessFault (effAddr rs1 imm s) := by
  refine traps_of_eq_takeTrap (e := ⟨.loadAccessFault, effAddr rs1 imm s⟩) ?_
  rw [hi, loadOp]
  simp [memRead, ha, hp, raise]

theorem load_misaligned (hi : exec i s = loadOp n extend rd rs1 imm s) (ha : aligned (effAddr rs1 imm s) n = false) :
    ∃ t, exec i s = .next t ∧ Traps s t .loadAddressMisaligned (effAddr rs1 imm s) := by
  refine traps_of_eq_takeTrap (e := ⟨.loadAddressMisaligned, effAddr rs1 imm s⟩) ?_
  rw [hi, loadOp]
  simp [memRead, ha, raise]

end

/-! ### The values loaded (R33, R101 to R105) -/

section
variable (s : State) (addr : Word)

theorem mainValue_byte : s.mainValue addr .byte = (s.byteAt addr).setWidth 32 := by
  simp [State.mainValue, assemble]

theorem mainValue_half : s.mainValue addr .half = (s.byteAt (addr + 1) ++ s.byteAt addr).setWidth 32 := by
  rw [State.mainValue, assemble, byteAddr_zero]; rfl

theorem mainValue_word : s.mainValue addr .word =
    s.byteAt (addr + 3) ++ s.byteAt (addr + 2) ++ s.byteAt (addr + 1) ++ s.byteAt addr := by
  rw [State.mainValue, assemble, byteAddr_zero]; rfl

end

theorem sextByte_setWidth (b : Byte) : sextByte (b.setWidth 32) = b.signExtend 32 := by
  rw [sextByte, BitVec.setWidth_setWidth_of_le _ (by decide), BitVec.setWidth_eq, sext]

theorem zextByte_setWidth (b : Byte) : zextByte (b.setWidth 32) = b.setWidth 32 := by
  rw [zextByte, BitVec.setWidth_setWidth_of_le _ (by decide), BitVec.setWidth_eq, zext]

theorem sextHalf_setWidth (h : BitVec 16) : sextHalf (h.setWidth 32) = h.signExtend 32 := by
  rw [sextHalf, BitVec.setWidth_setWidth_of_le _ (by decide), BitVec.setWidth_eq, sext]

theorem zextHalf_setWidth (h : BitVec 16) : zextHalf (h.setWidth 32) = h.setWidth 32 := by
  rw [zextHalf, BitVec.setWidth_setWidth_of_le _ (by decide), BitVec.setWidth_eq, zext]

theorem forall_mem_two {α : Type} {P : α → Prop} {a b : α} (ha : P a) (hb : P b) : ∀ x ∈ [a, b], P x :=
  List.forall_mem_cons.mpr ⟨ha, List.forall_mem_singleton.mpr hb⟩

/-- Settles O40: a byte is always aligned, so the map alone decides between the three outcomes. -/
theorem byteLoadResults : Obligations.ByteLoadResults := by
  rintro rd rs1 imm s _ rfl
  have ha := aligned_byte (effAddr rs1 imm s)
  refine ⟨rfl, fun hk hp => ⟨?_, ?_⟩, fun hk hp b hb => ⟨?_, ?_⟩, fun hp => ?_,
    encode_masked (Laws.EncodingMatchesRow.lb ..), encode_masked (Laws.EncodingMatchesRow.lbu ..)⟩
  · exact load_main (exec_lb ..) ha hk hp (by rw [mainValue_byte, sextByte_setWidth])
  · exact load_main (exec_lbu ..) ha hk hp (by rw [mainValue_byte, zextByte_setWidth])
  · exact load_io (exec_lb ..) ha hk hp (hb ▸ rfl) (sextByte_setWidth b)
  · exact load_io (exec_lbu ..) ha hk hp (hb ▸ rfl) (zextByte_setWidth b)
  · exact forall_mem_two (load_not_permitted (exec_lb ..) ha hp) (load_not_permitted (exec_lbu ..) ha hp)

/-- Settles O41: alignment decides first, then the map; two bytes make the value. -/
theorem halfwordLoadResults : Obligations.HalfwordLoadResults := by
  rintro rd rs1 imm s _ rfl
  refine ⟨rfl, fun ha hk hp h hh => ⟨?_, ?_⟩, fun ha hk hp h hh => ⟨?_, ?_⟩, fun ha hp => ?_, fun ha => ?_,
    encode_masked (Laws.EncodingMatchesRow.lh ..), encode_masked (Laws.EncodingMatchesRow.lhu ..)⟩
  · exact load_main (exec_lh ..) (aligned_of_mod ha) hk hp (by rw [mainValue_half, ← hh, sextHalf_setWidth])
  · exact load_main (exec_lhu ..) (aligned_of_mod ha) hk hp (by rw [mainValue_half, ← hh, zextHalf_setWidth])
  · exact load_io (exec_lh ..) (aligned_of_mod ha) hk hp (hh ▸ rfl) (sextHalf_setWidth h)
  · exact load_io (exec_lhu ..) (aligned_of_mod ha) hk hp (hh ▸ rfl) (zextHalf_setWidth h)
  · exact forall_mem_two (load_not_permitted (exec_lh ..) (aligned_of_mod ha) hp)
      (load_not_permitted (exec_lhu ..) (aligned_of_mod ha) hp)
  · exact forall_mem_two (load_misaligned (exec_lh ..) (not_aligned_of_mod ha))
      (load_misaligned (exec_lhu ..) (not_aligned_of_mod ha))

/-- Settles O42: as the halfword loads, with four bytes and no extension. -/
theorem wordLoadResults : Obligations.WordLoadResults := by
  rintro rd rs1 imm s _ rfl
  refine ⟨rfl, fun ha hk hp => ?_, fun ha hk hp v hv => ?_, fun ha hp => ?_, fun ha => ?_,
    encode_masked (Laws.EncodingMatchesRow.lw ..)⟩
  · exact load_main (exec_lw ..) (aligned_of_mod ha) hk hp (mainValue_word ..)
  · exact load_io (exec_lw ..) (aligned_of_mod ha) hk hp (hv ▸ rfl) rfl
  · exact load_not_permitted (exec_lw ..) (aligned_of_mod ha) hp
  · exact load_misaligned (exec_lw ..) (not_aligned_of_mod ha)

/-! ### The outcomes of a store (R155) -/

/-- A store to main memory, in any canonical memory (R34). -/
theorem storesMain_mainStore {s : State} (hm : s.mem.wf) (addr : Word) (n : Size) (v : Word) :
    StoresMain s (s.mainStore addr n v).advance addr (sizeBytes n) v where
  stored k hk := read_storeBytes_self hm addr v (by cases n <;> decide) hk
  bytes a h := read_storeBytes_ne s.mem addr v fun k hk he => h k hk (BitVec.eq_of_toNat_eq he)
  dirty _ := mem_markDirty
  regs _ := rfl
  pc := rfl
  trap := rfl
  map := rfl
  draws := rfl
  io := rfl

theorem storesIo_ioWriteDone (s : State) (addr : Word) (n : Size) (v : Word) :
    StoresIo s (s.ioWriteDone addr n v).advance (.write addr (sizeBytes n) (lowBytes n v)) where
  bytes _ := rfl
  dirty := rfl
  regs _ := rfl
  pc := rfl
  trap := rfl
  map := rfl
  draws := rfl
  io := rfl

section
variable {i : Instr} {n : Size} {rs2 rs1 : RegIdx} {imm : BitVec 12} {s : State}

theorem store_main (hi : exec i s = storeOp n rs2 rs1 imm s) (ha : aligned (effAddr rs1 imm s) n = true)
    (hm : s.mem.wf) (hk : kindAt s.map (effAddr rs1 imm s) = .main)
    (hp : permitted s.map (effAddr rs1 imm s) (sizeBytes n) .write = true) :
    ∃ t, exec i s = .next t ∧ StoresMain s t (effAddr rs1 imm s) (sizeBytes n) (s.reg rs2) := by
  refine ⟨_, ?_, storesMain_mainStore hm (effAddr rs1 imm s) n (s.reg rs2)⟩
  rw [hi, storeOp]
  simp [memWrite, ha, hk, hp]

theorem store_io {w : Word} (hi : exec i s = storeOp n rs2 rs1 imm s) (ha : aligned (effAddr rs1 imm s) n = true)
    (hk : kindAt s.map (effAddr rs1 imm s) = .io)
    (hp : permitted s.map (effAddr rs1 imm s) (sizeBytes n) .write = true) (hw : lowBytes n (s.reg rs2) = w) :
    ∃ t, exec i s = .next t ∧ StoresIo s t (.write (effAddr rs1 imm s) (sizeBytes n) w) := by
  subst hw
  refine ⟨_, ?_, storesIo_ioWriteDone s (effAddr rs1 imm s) n (s.reg rs2)⟩
  rw [hi, storeOp]
  simp [memWrite, ha, hk, hp]

theorem store_not_permitted (hi : exec i s = storeOp n rs2 rs1 imm s) (ha : aligned (effAddr rs1 imm s) n = true)
    (hp : permitted s.map (effAddr rs1 imm s) (sizeBytes n) .write = false) :
    ∃ t, exec i s = .next t ∧ Traps s t .storeAccessFault (effAddr rs1 imm s) := by
  refine traps_of_eq_takeTrap (e := ⟨.storeAccessFault, effAddr rs1 imm s⟩) ?_
  rw [hi, storeOp]
  simp [memWrite, ha, hp, raise]

theorem store_misaligned (hi : exec i s = storeOp n rs2 rs1 imm s) (ha : aligned (effAddr rs1 imm s) n = false) :
    ∃ t, exec i s = .next t ∧ Traps s t .storeAddressMisaligned (effAddr rs1 imm s) := by
  refine traps_of_eq_takeTrap (e := ⟨.storeAddressMisaligned, effAddr rs1 imm s⟩) ?_
  rw [hi, storeOp]
  simp [memWrite, ha, raise]

end

/-! ### The values stored (R155) -/

/-- Two bytes of a word, the higher above the lower, are its low half. -/
theorem wordByte_half (v : Word) : wordByte v 1 ++ wordByte v 0 = v.extractLsb' 0 16 := by
  apply BitVec.eq_of_getLsbD_eq
  intro k hk
  unfold wordByte
  simp only [BitVec.getLsbD_append, BitVec.getLsbD_extractLsb']
  interval_cases k <;> simp

theorem lowBytes_half (v : Word) : lowBytes .half v = (v.extractLsb' 0 16).setWidth 32 := by
  rw [← wordByte_half]; rfl

/-- Settles O43: a byte is always aligned, so the map alone decides between the three outcomes. -/
theorem byteStoreResults : Obligations.ByteStoreResults := by
  rintro rs2 rs1 imm s _ rfl
  have ha := aligned_byte (effAddr rs1 imm s)
  exact ⟨rfl, store_main (exec_sb ..) ha, fun hk hp => store_io (exec_sb ..) ha hk hp rfl,
    store_not_permitted (exec_sb ..) ha, encode_masked (Laws.EncodingMatchesRow.sb ..)⟩

/-- Settles O44: alignment decides first, then the map. -/
theorem halfwordStoreResults : Obligations.HalfwordStoreResults := by
  rintro rs2 rs1 imm s _ rfl
  exact ⟨rfl, fun ha => store_main (exec_sh ..) (aligned_of_mod ha),
    fun ha hk hp => store_io (exec_sh ..) (aligned_of_mod ha) hk hp (lowBytes_half _),
    fun ha => store_not_permitted (exec_sh ..) (aligned_of_mod ha),
    fun ha => store_misaligned (exec_sh ..) (not_aligned_of_mod ha), encode_masked (Laws.EncodingMatchesRow.sh ..)⟩

/-- Settles O45: as the halfword store, with all four bytes. -/
theorem wordStoreResults : Obligations.WordStoreResults := by
  rintro rs2 rs1 imm s _ rfl
  exact ⟨rfl, fun ha => store_main (exec_sw ..) (aligned_of_mod ha),
    fun ha hk hp => store_io (exec_sw ..) (aligned_of_mod ha) hk hp (leWord_wordByte _),
    fun ha => store_not_permitted (exec_sw ..) (aligned_of_mod ha),
    fun ha => store_misaligned (exec_sw ..) (not_aligned_of_mod ha), encode_masked (Laws.EncodingMatchesRow.sw ..)⟩

/-! ### A word stored and read back (R30) -/

/-- SW that completes on main memory found an aligned address and stored the word there. -/
theorem sw_completed {rs2 rs1 : RegIdx} {imm : BitVec 12} {s t : State} (h : exec (.sw rs2 rs1 imm) s = .next t)
    (ht : t.trap = none) (hk : kindAt s.map (effAddr rs1 imm s) = .main) :
    (effAddr rs1 imm s).toNat % 4 = 0 ∧ t = (s.mainStore (effAddr rs1 imm s) .word (s.reg rs2)).advance := by
  rw [exec_sw] at h
  rcases storeOp_next h with ⟨-, rfl⟩ | ⟨-, -, rfl⟩ | ⟨ha, -, -, he⟩ | ⟨-, -, hno, -⟩
  · cases ht
  · cases ht
  · exact ⟨aligned_iff.mp ha, he⟩
  · exact absurd hk hno

/-- A permission for some bytes holds for each run of bytes among them. -/
theorem permitted_sub {m : Config.MemMap} {addr : Word} {n : Nat} {op : Config.Access}
    (h : permitted m addr n op = true) {j k : Nat} (hj : j < n) (hjk : j + k ≤ n) :
    permitted m (byteAddr addr j) k op = true := by
  obtain ⟨hne, hall⟩ := permitted_iff.mp h
  have hkind := (hall j hj).1
  refine permitted_iff.mpr ⟨hkind ▸ hne, fun l hl => ?_⟩
  have hadd : byteAddr (byteAddr addr j) l = byteAddr addr (j + l) := by
    simp only [byteAddr, BitVec.add_assoc, BitVec.ofNat_add]
  rw [hadd, hkind]
  exact hall (j + l) (by omega)

/-- What a load from main memory leaves in a destination other than `x0`. -/
theorem load_main_reg {i : Instr} {n : Size} {extend : Word → Word} {rd rs1 : RegIdx} {imm : BitVec 12} {s : State}
    {addr v : Word} (hrd : rd ≠ 0) (hi : exec i s = loadOp n extend rd rs1 imm s) (haddr : effAddr rs1 imm s = addr)
    (ha : addr.toNat % sizeBytes n = 0) (hk : kindAt s.map addr = .main)
    (hp : permitted s.map addr (sizeBytes n) .read = true) (hv : extend (s.mainValue addr n) = v) :
    ∃ u, exec i s = .next u ∧ u.reg rd = v := by
  subst haddr
  obtain ⟨u, hu, hwrites⟩ := load_main hi (aligned_of_mod ha) hk hp hv
  exact ⟨u, hu, by rw [hwrites.regs, if_neg hrd, if_pos rfl]⟩

/-- Settles O31: each load finds the bytes SW stored, at an aligned and readable part of the same word. -/
theorem wordStoreIsReadBackLittleEndian : Obligations.WordStoreIsReadBackLittleEndian := by
  intro s t rs2 rs1 rd imm imm3 hm hrd ht hk hp haddr3 hexec
  obtain ⟨ha, rfl⟩ := sw_completed hexec ht hk
  generalize haddr : effAddr rs1 imm s = addr at *
  generalize s.reg rs2 = v
  have hbyte : ∀ k, k < 4 → (s.mainStore addr .word v).advance.byteAt (byteAddr addr k) = wordByte v k :=
    (storesMain_mainStore hm addr .word v).stored
  have h0 := hbyte 0 (by decide)
  rw [byteAddr_zero] at h0
  refine ⟨load_main_reg hrd (exec_lw ..) haddr ha hk hp (mainValue_eq_of_bytes hbyte),
    load_main_reg hrd (exec_lhu ..) haddr ?_ hk ?_ ?_, load_main_reg hrd (exec_lbu ..) haddr3 (Nat.mod_one _) ?_ ?_ ?_⟩
  · exact (Nat.mod_mod_of_dvd addr.toNat (by decide : 2 ∣ 4)).symm.trans (congrArg (· % 2) ha)
  · exact byteAddr_zero addr ▸ permitted_sub hp (j := 0) (k := 2) (by decide) (by decide)
  · have h1 : (s.mainStore addr .word v).advance.byteAt (addr + 1) = wordByte v 1 := hbyte 1 (by decide)
    rw [mainValue_half, h0, h1, zextHalf_setWidth, wordByte_half]
  · exact ((permitted_iff.mp hp).2 3 (by decide)).1.trans hk
  · exact permitted_sub hp (j := 3) (k := 1) (by decide) (by decide)
  · have h3 : (s.mainStore addr .word v).advance.byteAt (addr + 3) = wordByte v 3 := hbyte 3 (by decide)
    rw [mainValue_byte, h3, zextByte_setWidth]; rfl

end Sys2Proof.Machine
end

section
/-! Control transfer (R125, R160 to R178): the outcomes of `branchOp` and `jumpOp`, the conditions on mathematical
values, JALR's target, and from these the statements of the two families. -/

namespace Sys2Proof.Machine

/-! ### Branches (R160) -/

/-- Moving pc and nothing else. -/
theorem setPc_onlyPc (s : State) (target : Word) : OnlyPc s (s.setPc target) target where
  regs _ := rfl
  pc := rfl
  draws := rfl
  rest := ⟨fun _ => rfl, rfl, rfl, rfl, rfl⟩

section
variable {i : Instr} {taken : Bool} {offset : BitVec 13} {s : State}

/-- The three outcomes of a branch whose condition is `c`. -/
theorem branch_results {c : Prop} (hi : exec i s = branchOp taken offset s) (hc : taken = true ↔ c) :
    (c → (s.pc + offset.signExtend 32).getLsbD 1 = false →
      ∃ t, exec i s = .next t ∧ OnlyPc s t (s.pc + offset.signExtend 32)) ∧
    (c → (s.pc + offset.signExtend 32).getLsbD 1 = true →
      ∃ t, exec i s = .next t ∧ Traps s t .instructionAddressMisaligned (s.pc + offset.signExtend 32)) ∧
    (¬ c → ∃ t, exec i s = .next t ∧ OnlyPc s t (s.pc + 4)) := by
  have htarget : pcRelative (immB offset) s = s.pc + offset.signExtend 32 := rfl
  rw [hi, branchOp, htarget, ← hc]
  refine ⟨fun ht hb => ?_, fun ht hb => ?_, fun ht => ?_⟩
  · rw [if_pos ht, hb]; exact ⟨_, rfl, setPc_onlyPc ..⟩
  · rw [if_pos ht, hb]; exact ⟨_, rfl, takeTrap_traps ..⟩
  · rw [if_neg ht]; exact ⟨_, rfl, setPc_onlyPc ..⟩

end

section
variable (rs1 rs2 : RegIdx) (offset : BitVec 13) (s : State)

theorem exec_beq : exec (.beq rs1 rs2 offset) s = branchOp (s.reg rs1 == s.reg rs2) offset s := rfl
theorem exec_bne : exec (.bne rs1 rs2 offset) s = branchOp (s.reg rs1 != s.reg rs2) offset s := rfl
theorem exec_blt : exec (.blt rs1 rs2 offset) s = branchOp (ltS (s.reg rs1) (s.reg rs2)) offset s := rfl
theorem exec_bge : exec (.bge rs1 rs2 offset) s = branchOp (!ltS (s.reg rs1) (s.reg rs2)) offset s := rfl
theorem exec_bltu : exec (.bltu rs1 rs2 offset) s = branchOp (ltU (s.reg rs1) (s.reg rs2)) offset s := rfl
theorem exec_bgeu : exec (.bgeu rs1 rs2 offset) s = branchOp (!ltU (s.reg rs1) (s.reg rs2)) offset s := rfl

end

theorem ltS_iff {a b : Word} : ltS a b = true ↔ a.toInt < b.toInt := by simp [ltS, BitVec.slt]

theorem ltU_iff {a b : Word} : ltU a b = true ↔ a.toNat < b.toNat := by simp [ltU, BitVec.ult]

theorem not_ltS_iff {a b : Word} : (!ltS a b) = true ↔ b.toInt ≤ a.toInt := by
  rw [Bool.not_eq_true', ← Bool.not_eq_true, ltS_iff, Int.not_lt]

theorem not_ltU_iff {a b : Word} : (!ltU a b) = true ↔ b.toNat ≤ a.toNat := by
  rw [Bool.not_eq_true', ← Bool.not_eq_true, ltU_iff, Nat.not_lt]

/-- Settles O46: each branch is `branchOp` of its condition. -/
theorem branchResults : Obligations.BranchResults := by
  intro rs1 rs2 offset s
  refine ⟨?_, encode_masked (Laws.EncodingMatchesRow.beq ..), encode_masked (Laws.EncodingMatchesRow.bne ..),
    encode_masked (Laws.EncodingMatchesRow.blt ..), encode_masked (Laws.EncodingMatchesRow.bge ..),
    encode_masked (Laws.EncodingMatchesRow.bltu ..), encode_masked (Laws.EncodingMatchesRow.bgeu ..)⟩
  simp only [branchConditions, List.forall_mem_cons]
  exact ⟨branch_results (exec_beq ..) beq_iff_eq, branch_results (exec_bne ..) bne_iff_ne,
    branch_results (exec_blt ..) ltS_iff, branch_results (exec_bge ..) not_ltS_iff,
    branch_results (exec_bltu ..) ltU_iff, branch_results (exec_bgeu ..) not_ltU_iff, fun _ h => by cases h⟩

/-! ### Jumps (R125, R175) -/

theorem writesReg_setReg_setPc (s : State) (rd : RegIdx) (v target : Word) :
    WritesReg s ((s.setReg rd v).setPc target) rd v target where
  regs r := State.reg_setReg s rd r v
  pc := rfl
  draws := by simp
  rest :=
    { bytes := by simp
      dirty := by simp
      trap := by simp
      map := by simp
      io := by simp }

/-- The two outcomes of a jump. -/
theorem jump_results {i : Instr} {target : Word} {rd : RegIdx} {s : State} (hi : exec i s = jumpOp target rd s) :
    (target.getLsbD 1 = false → ∃ t, exec i s = .next t ∧ WritesReg s t rd (s.pc + 4) target) ∧
    (target.getLsbD 1 = true → ∃ t, exec i s = .next t ∧ Traps s t .instructionAddressMisaligned target) := by
  rw [hi, jumpOp]
  refine ⟨fun hb => ?_, fun hb => ?_⟩ <;> rw [hb]
  · exact ⟨_, rfl, writesReg_setReg_setPc ..⟩
  · exact ⟨_, rfl, takeTrap_traps ..⟩

/-- The mask that clears bit 0 drops it and puts a zero in its place. -/
theorem and_evenMask_eq_shift (w : Word) : w &&& 0xFFFFFFFE#32 = (w >>> 1) <<< 1 := by
  apply BitVec.eq_of_getLsbD_eq
  intro k hk
  rw [BitVec.getLsbD_and]
  interval_cases k <;> simp

/-- JALR's target is the sum rounded down to an even number (R125). -/
theorem toNat_jalrTarget (rs1 : RegIdx) (imm : BitVec 12) (s : State) :
    (jalrTarget rs1 imm s).toNat = (s.reg rs1 + imm.signExtend 32).toNat / 2 * 2 := by
  have hlt := (s.reg rs1 + imm.signExtend 32).isLt
  change ((s.reg rs1 + imm.signExtend 32) &&& 0xFFFFFFFE#32).toNat = _
  rw [and_evenMask_eq_shift, BitVec.toNat_shiftLeft, BitVec.toNat_ushiftRight, Nat.shiftLeft_eq,
    Nat.shiftRight_eq_div_pow]
  omega

/-- Settles O47: both are `jumpOp` of their target. -/
theorem jumpResults : Obligations.JumpResults := by
  intro rd rs1 offset imm s
  obtain ⟨hjal, hjalTrap⟩ := jump_results (exec_jal rd s offset)
  exact ⟨hjal, hjalTrap, ⟨jalrTarget rs1 imm s, toNat_jalrTarget rs1 imm s, jump_results (exec_jalr rd rs1 imm s)⟩,
    encode_masked (Laws.EncodingMatchesRow.jal ..), encode_masked (Laws.EncodingMatchesRow.jalr ..)⟩

end Sys2Proof.Machine
end

section
/-! CSR instructions (R130 to R137), ECALL, EBREAK and the fences (R145 to R149), a store into the next instruction
(R44), and the pairs of an upper immediate and ADDI. -/

namespace Sys2Proof.Machine

/-! ### CSR instructions -/

theorem mem_counterAddresses {c : CsrAddr} : c ∈ counterAddresses ↔ isCounter c = true := by
  simp [counterAddresses, isCounter, or_assoc]

section
variable {i : Instr} {op : CsrOp} {src : Word} {doRead doWrite : Bool} {rd : RegIdx} {c : CsrAddr} {s : State}

/-- A CSR instruction that writes, or reads what is no counter, raises IllegalInstruction with its own word. -/
theorem csr_illegal (hi : exec i s = csrInstr (encode i) op src doRead doWrite rd c s)
    (h : doWrite = true ∨ (doRead = true ∧ isCounter c = false)) :
    ∃ t, exec i s = .next t ∧ Traps s t .illegalInstruction (encode i) := by
  refine traps_of_eq_takeTrap (e := ⟨.illegalInstruction, encode i⟩) ?_
  rw [hi]
  rcases csrInstr_cases (encode i) op src doRead doWrite rd c s with ⟨-, hw, hc, -⟩ | ⟨hr, hw, -⟩ | ⟨-, he⟩
  · simp [hw, hc] at h
  · simp [hr, hw] at h
  · exact he

/-- A CSR instruction that reads a counter and does not write puts one draw in `rd`. -/
theorem csr_read (hi : exec i s = csrInstr (encode i) op src true doWrite rd c s) (hw : doWrite = false)
    (hc : isCounter c = true) :
    ∃ t, exec i s = .next t ∧
      (∀ r, t.reg r = if r = 0 then 0 else if r = rd then Config.counterRead s.draws c else s.reg r) ∧
      t.pc = s.pc + 4 ∧ t.draws = s.draws + 1 ∧ SameOutside s t := by
  rw [hi]
  rcases csrInstr_cases (encode i) op src true doWrite rd c s with ⟨-, -, -, he⟩ | ⟨hr, -⟩ | ⟨h, -⟩
  · refine ⟨_, he, fun r => State.reg_setReg _ rd r _, by simp, by simp, ?_⟩
    exact { bytes := by simp [State.byteAt], dirty := by simp, trap := by simp, map := by simp, io := by simp }
  · cases hr
  · simp [hw, hc] at h

end

theorem forall_mem_four {P : Instr → Prop} {a b c d : Instr} (ha : P a) (hb : P b) (hc : P c) (hd : P d) :
    ∀ i ∈ [a, b, c, d], P i :=
  List.forall_mem_cons.mpr ⟨ha, List.forall_mem_cons.mpr ⟨hb, forall_mem_two hc hd⟩⟩

/-- Settles O48: CSRRW and CSRRWI write always, the other four write when their source field is not 0 and read
always. -/
theorem csrOutcomeTable : Obligations.CsrOutcomeTable := by
  intro rd src csr s
  refine ⟨?_, fun h => ?_, fun h hc => ?_⟩
  · exact forall_mem_two (csr_illegal (exec_csrrw ..) (.inl rfl)) (csr_illegal (exec_csrrwi ..) (.inl rfl))
  · have hill : (src != 0) = true ∨ (true = true ∧ isCounter csr = false) :=
      h.imp bne_iff_ne.mpr fun hc => ⟨rfl, Bool.eq_false_iff.mpr (mt mem_counterAddresses.mpr hc)⟩
    exact forall_mem_four (csr_illegal (exec_csrrs ..) hill) (csr_illegal (exec_csrrc ..) hill)
      (csr_illegal (exec_csrrsi ..) hill) (csr_illegal (exec_csrrci ..) hill)
  · have hw : (src != 0) = false := by simp [h]
    have hcount := mem_counterAddresses.mp hc
    exact forall_mem_four (csr_read (exec_csrrs ..) hw hcount) (csr_read (exec_csrrc ..) hw hcount)
      (csr_read (exec_csrrsi ..) hw hcount) (csr_read (exec_csrrci ..) hw hcount)

/-! ### ECALL, EBREAK and the fences -/

/-- One word decodes to an instruction without operands: its encoding (R65). -/
theorem decode_eq_ok_iff {w : Word} {i : Instr} (hi : i.wellFormed = true) : decode w = .ok i ↔ w = encode i :=
  ⟨fun h => (encodeGivesBackWhatWasDecoded w i h).1.symm, fun h => h ▸ decodeGivesBackWhatWasEncoded i hi⟩

/-- Settles O49: each is one `raise`, and its word is its encoding. -/
theorem ecallAndEbreakTrapAndDoNothingElse : Obligations.EcallAndEbreakTrapAndDoNothingElse := by
  intro s
  exact ⟨⟨_, rfl, takeTrap_traps ..⟩, ⟨_, rfl, takeTrap_traps ..⟩, fun w => decode_eq_ok_iff rfl,
    fun w => decode_eq_ok_iff rfl⟩

/-- Settles O50: FENCE is one `advance`. -/
theorem fenceOnlyAdvancesPc : Obligations.FenceOnlyAdvancesPc := by
  intro fm pred succ rs1 rd s
  exact ⟨⟨_, rfl, setPc_onlyPc ..⟩, encode_masked (Laws.EncodingMatchesRow.fence ..)⟩

/-- Where nothing is `dirty` no fetch is refused. -/
theorem step_not_stale_of_clean {t : State} (h : t.dirty = []) (a : Word) : step t ≠ .refused (.staleFetch a) := by
  intro hstep
  have hclean : isStale t.dirty t.pc = false := by rw [h]; rfl
  cases htr : t.trap with
  | some tr => rw [recordedTrapEndsTheRun t tr htr] at hstep; cases hstep
  | none =>
    rcases step_cases htr with ⟨e, he, -⟩ | ⟨-, hd, -⟩ | ⟨i, -, -, he⟩
    · cases he.symm.trans hstep
    · rw [hclean] at hd; cases hd
    · obtain ⟨u, hu⟩ := everyInstructionAnswersANextState i t
      cases hu.symm.trans (he.symm.trans hstep)

/-- Settles O51: the state after FENCE.I has nothing `dirty`; the fetch of FENCE.I itself is checked like any other. -/
theorem fenceIResults : Obligations.FenceIResults := by
  intro imm rs1 rd s
  exact ⟨⟨_, rfl, rfl, setPc_onlyPc .., step_not_stale_of_clean rfl⟩,
    fun hs ha hx _ hd => step_of_stale hs ha hx hd, encode_masked (Laws.EncodingMatchesRow.fenceI ..)⟩

/-- Settles O52: SW has marked its first byte, at the address the next step fetches. -/
theorem storeIntoNextWordIsRefused : Obligations.StoreIntoNextWordIsRefused := by
  intro rs2 rs1 imm s t ha hexec ht hk haddr hx
  obtain ⟨-, rfl⟩ := sw_completed hexec ht hk
  refine step_of_stale ht (pcAligned_advance ha) hx (isStale_iff.mpr ⟨0, by decide, ?_⟩)
  exact mem_markDirty.mpr (.inr ⟨0, by decide, by rw [haddr]; rfl⟩)

/-! ### An upper immediate and ADDI (30_encoding.md section 8) -/

/-- A sign-extended 12-bit field as a number: past its middle it stands for itself less 4096. -/
theorem toNat_signExtend_imm12 (lo : BitVec 12) :
    (lo.signExtend 32).toNat = lo.toNat + if 2048 ≤ lo.toNat then 2 ^ 32 - 2 ^ 12 else 0 := by
  rw [BitVec.toNat_signExtend, BitVec.msb_eq_decide, BitVec.toNat_setWidth_of_le (by decide)]
  simp

/-- The high part, rounded up when bit 11 is set, and the signed low part make the value: the sign takes away what the
rounding adds. -/
theorem immU_add_imm12 (v : Word) :
    immU (v.extractLsb' 12 20 + (v.extractLsb' 11 1).setWidth 20) + (v.extractLsb' 0 12).signExtend 32 = v := by
  have hv := v.isLt
  apply BitVec.eq_of_toNat_eq
  rw [BitVec.toNat_add, toNat_immU, toNat_signExtend_imm12]
  simp only [BitVec.toNat_add, BitVec.toNat_setWidth, BitVec.extractLsb'_toNat, Nat.shiftRight_eq_div_pow]
  split <;> omega

/-- Two instructions that write one register in turn leave the second value. -/
theorem WritesReg.trans {s t u : State} {rd : RegIdx} {v w p q : Word} (h1 : WritesReg s t rd v p)
    (h2 : WritesReg t u rd w q) : WritesReg s u rd w q where
  regs r := by rw [h2.regs, h1.regs]; split <;> [rfl; split <;> rfl]
  pc := h2.pc
  draws := h2.draws.trans h1.draws
  rest :=
    { bytes := fun a => (h2.rest.bytes a).trans (h1.rest.bytes a)
      dirty := h2.rest.dirty.trans h1.rest.dirty
      trap := h2.rest.trap.trans h1.rest.trap
      map := h2.rest.map.trans h1.rest.map
      io := h2.rest.io.trans h1.rest.io }

/-- An instruction that writes the high part, then ADDI of the low part. -/
theorem upper_then_addi {i : Instr} {rd : RegIdx} {hi v : Word} {lo : BitVec 12} {s : State} (hrd : rd ≠ 0)
    (hexec : exec i s = writeBack rd hi s) (hv : hi + lo.signExtend 32 = v) :
    ∃ t u, exec i s = .next t ∧ exec (.addi rd rd lo) t = .next u ∧ WritesReg s u rd v (s.pc + 8) := by
  obtain ⟨t, ht, hw⟩ := exec_writesReg hexec
  obtain ⟨u, hu, hw2⟩ := exec_writesReg (exec_addi rd rd lo t)
  rw [hw.regs, if_neg hrd, if_pos rfl, hv, hw.pc, BitVec.add_assoc] at hw2
  exact ⟨t, u, ht, hu, hw.trans hw2⟩

/-- Settles O39: AUIPC builds the distance from pc in the same two parts. -/
theorem upperImmediateThenAddiReachesEveryValue : Obligations.UpperImmediateThenAddiReachesEveryValue := by
  intro rd v s hrd
  refine ⟨upper_then_addi hrd (exec_lui ..) (immU_add_imm12 v), upper_then_addi hrd (exec_auipc ..) ?_⟩
  rw [pcRelative, BitVec.add_assoc, immU_add_imm12, BitVec.add_comm, BitVec.sub_add_cancel]

end Sys2Proof.Machine
end
